-- ==== Sys2Proof/Word.lean ====
section
/-! DEFINITION. The fixed widths of the machine (spec/00_scope.md R6, last paragraph): these are not parameters. -/

namespace Sys2Proof

/-- A general register, a memory byte, a timer (R6, R11, R17, R19). -/
abbrev Byte := BitVec 8

/-- An instruction word, the program counter, the index register, a call-stack entry (R6, R13, R14, R15). -/
abbrev Word := BitVec 16

/-- A 4-bit field of an instruction word (R9, R46). -/
abbrev Nibble := BitVec 4

/-- The 12-bit address field `nnn` (R46). -/
abbrev Addr := BitVec 12

/-- A register index: each of the sixteen values names a register (R11, R49). -/
abbrev RegIdx := Fin 16

end Sys2Proof
end

