-- ==== Sys2Proof/Syntax.lean ====
section
/-! DEFINITION. The instructions: one constructor per row of spec/opcode_table.json, and the Decoded Instruction. -/

namespace Sys2Proof

/-- The Decoded Instruction of spec/30_encoding.md R46: the word and every field extracted from it.
The field `cls` is the spec's `class` (bits 15..12). -/
structure DecodedInstruction where
  word : Word
  cls : Nibble
  x : Nibble
  y : Nibble
  n : Nibble
  nn : Byte
  nnn : Addr
  deriving DecidableEq, Repr

/-- The instruction set (spec/30_encoding.md R50): eight supported instructions and ten unsupported rows.
Bits of a word that the instruction ignores (R48) are kept as arguments, so that a term stands for exactly
one word; no meaning reads them (DESIGN CHOICE, safe, log 20). -/
inductive Instr where
  /-- Clear framebuffer, `0x0?E0`; `x` is ignored (R100, R52). -/
  | cls (x : Nibble)
  /-- Return from subroutine, `0x0?EE`; `x` is ignored (R80, R52). -/
  | ret (x : Nibble)
  /-- Jump, `0x1NNN` (R81). -/
  | jp (nnn : Addr)
  /-- Call subroutine, `0x2NNN` (R82). -/
  | call (nnn : Addr)
  /-- Load immediate, `0x6XNN` (R90). -/
  | ldV (x : RegIdx) (nn : Byte)
  /-- Add immediate, `0x7XNN` (R91). -/
  | addV (x : RegIdx) (nn : Byte)
  /-- Load index, `0xANNN` (R92). -/
  | ldI (nnn : Addr)
  /-- Draw sprite, `0xDXYN` (R101). -/
  | drw (x y : RegIdx) (n : Nibble)
  /-- Class 0x0 with `nn` neither 0xE0 nor 0xEE (R121). -/
  | unsupported0 (x : Nibble) (nn : Byte)
  /-- Class 0x3 (R120). -/
  | unsupported3 (bits : Addr)
  /-- Class 0x4 (R120). -/
  | unsupported4 (bits : Addr)
  /-- Class 0x5 (R120). -/
  | unsupported5 (bits : Addr)
  /-- Class 0x8 (R120). -/
  | unsupported8 (bits : Addr)
  /-- Class 0x9 (R120). -/
  | unsupported9 (bits : Addr)
  /-- Class 0xB (R120). -/
  | unsupportedB (bits : Addr)
  /-- Class 0xC (R120). -/
  | unsupportedC (bits : Addr)
  /-- Class 0xE (R120). -/
  | unsupportedE (bits : Addr)
  /-- Class 0xF (R120). -/
  | unsupportedF (bits : Addr)
  deriving DecidableEq, Repr

end Sys2Proof
end

