-- ==== Sys2Proof/Decode.lean ====
section
/-! DEFINITION. Decoding (spec/30_encoding.md R45 to R53) and the encoder written from the same tables. -/

namespace Sys2Proof

/-- `Decode(word)` of R46: every field, extracted from every word. -/
def fields (w : Word) : DecodedInstruction where
  word := w
  cls := w.extractLsb' 12 4
  x := w.extractLsb' 8 4
  y := w.extractLsb' 4 4
  n := w.extractLsb' 0 4
  nn := w.extractLsb' 0 8
  nnn := w.extractLsb' 0 12

/-- A register field names the register with its number (R49). -/
def regOf (f : Nibble) : RegIdx := f.toFin

/-- The field that names a register. -/
def nibbleOf (r : RegIdx) : Nibble := BitVec.ofFin r

/-- The executor's selection of an instruction (R51): class first, then `nn` inside class 0x0 (R52).
A class is below 16, so the last arm is class 0xF. -/
def select (d : DecodedInstruction) : Instr :=
  match d.cls.toNat with
  | 0x0 => if d.nn = 0xE0 then .cls d.x else if d.nn = 0xEE then .ret d.x else .unsupported0 d.x d.nn
  | 0x1 => .jp d.nnn
  | 0x2 => .call d.nnn
  | 0x3 => .unsupported3 d.nnn
  | 0x4 => .unsupported4 d.nnn
  | 0x5 => .unsupported5 d.nnn
  | 0x6 => .ldV (regOf d.x) d.nn
  | 0x7 => .addV (regOf d.x) d.nn
  | 0x8 => .unsupported8 d.nnn
  | 0x9 => .unsupported9 d.nnn
  | 0xA => .ldI d.nnn
  | 0xB => .unsupportedB d.nnn
  | 0xC => .unsupportedC d.nnn
  | 0xD => .drw (regOf d.x) (regOf d.y) d.n
  | 0xE => .unsupportedE d.nnn
  | _ => .unsupportedF d.nnn

/-- The instruction a word stands for: total, no decode failure (R47, R53). -/
def decode (w : Word) : Instr := select (fields w)

/-- The one way a list of bytes can fail to hold an instruction: fewer than the two bytes of a word (R45). -/
inductive DecodeError where
  | truncated
  deriving DecidableEq, Repr

/-- The word of two bytes, the byte at the lower address in bits 15..8 (spec/20_memory.md R32). -/
def wordOfBytes (hi lo : Byte) : Word := hi ++ lo

/-- The high byte of a word, which lies at the lower address (R32). -/
def highByte (w : Word) : Byte := w.extractLsb' 8 8

/-- The low byte of a word, which lies at the higher address (R32). -/
def lowByte (w : Word) : Byte := w.extractLsb' 0 8

/-- Decoding from a list of bytes: the instruction and the bytes after it. -/
def decodeBytes : List Byte → Except DecodeError (Instr × List Byte)
  | hi :: lo :: rest => .ok (decode (wordOfBytes hi lo), rest)
  | [_] | [] => .error .truncated

/-- A word of class `c` whose low twelve bits are `a` (the "address" form of R48). -/
def addressForm (c : Nibble) (a : Addr) : Word := c ++ a

/-- A word of class `c`, field `x` and immediate `nn` (the "register-immediate" form of R48). -/
def immediateForm (c x : Nibble) (nn : Byte) : Word := c ++ (x ++ nn)

/-- A word of class `c` and fields `x`, `y`, `n` (the "register-register-nibble" form of R48). -/
def nibbleForm (c x y n : Nibble) : Word := c ++ (x ++ (y ++ n))

/-- The word of an instruction, from the opcode map of R50. -/
def encode : Instr → Word
  | .cls x => immediateForm 0x0 x 0xE0
  | .ret x => immediateForm 0x0 x 0xEE
  | .jp nnn => addressForm 0x1 nnn
  | .call nnn => addressForm 0x2 nnn
  | .ldV x nn => immediateForm 0x6 (nibbleOf x) nn
  | .addV x nn => immediateForm 0x7 (nibbleOf x) nn
  | .ldI nnn => addressForm 0xA nnn
  | .drw x y n => nibbleForm 0xD (nibbleOf x) (nibbleOf y) n
  | .unsupported0 x nn => immediateForm 0x0 x nn
  | .unsupported3 b => addressForm 0x3 b
  | .unsupported4 b => addressForm 0x4 b
  | .unsupported5 b => addressForm 0x5 b
  | .unsupported8 b => addressForm 0x8 b
  | .unsupported9 b => addressForm 0x9 b
  | .unsupportedB b => addressForm 0xB b
  | .unsupportedC b => addressForm 0xC b
  | .unsupportedE b => addressForm 0xE b
  | .unsupportedF b => addressForm 0xF b

/-- The bytes of an instruction in memory order (R32). -/
def encodeBytes (i : Instr) : List Byte := [highByte (encode i), lowByte (encode i)]

/-- The bits of a table word as the sixteen bits of an instruction word, those above `nbits` being zero. -/
def tableWord (nbits w : Nat) : Word := BitVec.ofNat 16 (w % 2 ^ nbits)

/-- The instruction the decoder reads from the bytes of a table word laid out in memory order. -/
def decodeTableWord (nbits w : Nat) : Option Instr :=
  match decodeBytes [highByte (tableWord nbits w), lowByte (tableWord nbits w)] with
  | .ok (i, _) => some i
  | .error _ => none

end Sys2Proof
end

