-- ==== Sys2Proof/Config.lean ====
section
/-! DEFINITION. The implementation parameters of spec/00_scope.md R6, one field each, with the spec's defaults. -/

namespace Sys2Proof

/-- `RESET_FILL` (R6, R26; D3): what the state that the source does not initialise holds at construction. -/
inductive ResetFill where
  | zero
  | arbitrary
  deriving DecidableEq, Repr

/-- `UNSUPPORTED_POLICY` (R6, R122; D9): what an unsupported word does. -/
inductive UnsupportedPolicy where
  | noOp
  | fault
  deriving DecidableEq, Repr

/-- The parameters of the machine (R6): fixed at construction, read by no instruction as data (R24). -/
structure Config where
  /-- `MEM_SIZE`: bytes in the memory array. -/
  memSize : Nat
  /-- `PROGRAM_BASE`: first address of the program image and initial pc. -/
  programBase : Nat
  /-- `FONT_BASE`: first address of the font glyph table. -/
  fontBase : Nat
  /-- `FONT_LEN`: bytes of the font glyph table. -/
  fontLen : Nat
  /-- `FONT`: the bytes of the glyph table. -/
  font : List Byte
  /-- `STACK_CAP`: capacity of the call stack. -/
  stackCap : Nat
  /-- `FB_W`: framebuffer width in pixels. -/
  fbW : Nat
  /-- `FB_H`: framebuffer height in pixels. -/
  fbH : Nat
  /-- `CADENCE_HZ`: controller cycle rate; timing only, no rule depends on it (R68, R159). -/
  cadenceHz : Nat
  /-- `RESET_FILL`. -/
  resetFill : ResetFill
  /-- `UNSUPPORTED_POLICY`. -/
  unsupportedPolicy : UnsupportedPolicy
  /-- `QUIT_COMPLETES_CYCLE`: whether the cycle in which Quit is entered still fetches and executes (D11). -/
  quitCompletesCycle : Bool
  deriving DecidableEq, Repr

namespace Config

/-- The default `FONT` of spec/10_state.md R21, five bytes a glyph.
PRESUMED (unsafe, log 3): the spec takes these bytes from general knowledge, not from its source. -/
def defaultFont : List Byte :=
  [0xF0, 0x90, 0x90, 0x90, 0xF0] ++ [0x20, 0x60, 0x20, 0x20, 0x70] ++
  [0xF0, 0x10, 0xF0, 0x80, 0xF0] ++ [0xF0, 0x10, 0xF0, 0x10, 0xF0] ++
  [0x90, 0x90, 0xF0, 0x10, 0x10] ++ [0xF0, 0x80, 0xF0, 0x10, 0xF0] ++
  [0xF0, 0x80, 0xF0, 0x90, 0xF0] ++ [0xF0, 0x10, 0x20, 0x40, 0x40] ++
  [0xF0, 0x90, 0xF0, 0x90, 0xF0] ++ [0xF0, 0x90, 0xF0, 0x10, 0xF0] ++
  [0xF0, 0x90, 0xF0, 0x90, 0x90] ++ [0xE0, 0x90, 0xE0, 0x90, 0xE0] ++
  [0xF0, 0x80, 0x80, 0x80, 0xF0] ++ [0xE0, 0x90, 0x90, 0x90, 0xE0] ++
  [0xF0, 0x80, 0xF0, 0x80, 0xF0] ++ [0xF0, 0x80, 0xF0, 0x80, 0x80]

/-- The default of every parameter (R6's table).
UNVERIFIED (unsafe, log 2): the spec says that the source's numeric literals are unaudited (D1). -/
def default : Config where
  memSize := 4096
  programBase := 0x200
  fontBase := 0
  fontLen := 80
  font := defaultFont
  stackCap := 12
  fbW := 64
  fbH := 32
  cadenceHz := 60
  resetFill := .zero
  unsupportedPolicy := .noOp
  quitCompletesCycle := true

/-- What memory holds at address `a` after steps (1) and (2) of construction (spec/70_reset_and_hazards.md R150):
zero everywhere, then `FONT` at `FONT_BASE`. No instruction changes memory (R35), so this is also what an
address reads as that the program image does not cover (R31). -/
def constructedByte (c : Config) (a : Nat) : Byte :=
  if c.fontBase ≤ a ∧ a < c.fontBase + c.fontLen then c.font.getD (a - c.fontBase) 0 else 0

end Config

end Sys2Proof
end

