-- ==== Sys2Proof/Machine/State.lean ====
section
/-! DEFINITION. The Machine State of spec/10_state.md R10, the reasons a cycle can stop, and the state after reset. -/

namespace Sys2Proof.Machine

/-- The memory array `M` (R17): the bytes that differ from what construction leaves at their address
(`Config.constructedByte`: zero, with the font at `FONT_BASE`), addresses strictly rising. -/
abbrev Memory := List Host.Cell

/-- The framebuffer `FB` (R18): rows from the top, each row its pixels from the left; `true` is lit. -/
abbrev Framebuffer := List (List Bool)

/-- The input latch `K` (R20): one boolean per button of the keypad. -/
abbrev KeyLatch := Vector Bool 16

/-- The run state (R22). -/
inductive RunState where
  | running
  | paused
  | quit
  deriving DecidableEq, Repr

/-- What the Input Bridge supplies once per cycle (spec/40_controller.md R60, R74). -/
structure HostInput where
  keys : KeyLatch
  pauseEdge : Bool
  quit : Bool
  deriving DecidableEq, Repr

/-- No key down, no pause edge, no quit (the convention of spec/95_test_vectors.md). -/
def HostInput.quiet : HostInput where
  keys := Vector.replicate 16 false
  pauseEdge := false
  quit := false

/-- What a cycle hands to the Renderer Bridge (spec/40_controller.md R70). -/
inductive Presented where
  /-- The framebuffer at the end of an executed cycle. -/
  | frame (fb : Framebuffer)
  /-- A paused cycle: the unchanged framebuffer was handed over again, or nothing was. The spec allows both
  (D17) and this entry stands for both (DESIGN CHOICE, safe, log 16). -/
  | repeatAllowed (fb : Framebuffer)
  deriving DecidableEq, Repr

/-- The machine: the eleven components of R10, and three fields of the model's own (`cfg`, `inputs`, `output`). -/
structure State where
  /-- `M` (R17). -/
  mem : Memory
  /-- `V[0..15]` (R11); `V[0xF]` is also the collision flag (R12). -/
  v : Vector Byte 16
  /-- `I` (R13). -/
  i : Word
  /-- `pc` (R14). -/
  pc : Word
  /-- `S` (R15), in the spec's order: the last entry is the top. -/
  stack : List Word
  /-- `FB` (R18). -/
  fb : Framebuffer
  /-- `DT` (R19). -/
  dt : Byte
  /-- `ST` (R19). -/
  st : Byte
  /-- `K` (R20). -/
  keys : KeyLatch
  /-- `run` (R22). -/
  run : RunState
  /-- `current_instruction` (R23). -/
  current : Option DecodedInstruction
  /-- The machine's parameters (R6, R24): no step writes them (DESIGN CHOICE, safe, log 1). -/
  cfg : Config
  /-- The host inputs of the coming cycles, oldest first; when the list is empty the host is quiet
  (DESIGN CHOICE, unsafe, log 5). -/
  inputs : List HostInput
  /-- What was handed to the Renderer Bridge, newest first (R39; DESIGN CHOICE, safe, log 17). -/
  output : List Presented
  deriving DecidableEq, Repr

/-- A framebuffer of `h` rows and `w` columns with every pixel false. -/
def Framebuffer.blank (w h : Nat) : Framebuffer := List.replicate h (List.replicate w false)

/-- The five fatal kinds (spec/60_exceptions.md R130). -/
inductive FatalKind where
  /-- RET with an empty stack (R131). The spec's own stop: safe. -/
  | stackUnderflow
  /-- CALL with a full stack (R132). The spec's own stop: safe. -/
  | stackOverflow
  /-- The fetch check of R63 fails (R133). The check point is the spec's decision D4: safe (log 7). -/
  | pcOutOfBounds
  /-- DRW would draw a row beyond memory (R135). The spec's decision D6: safe (log 8). -/
  | memoryOutOfBounds
  /-- An unsupported word under `UNSUPPORTED_POLICY = Fault` (R134; D9): safe (log 11). -/
  | unsupportedOpcode
  deriving DecidableEq, Repr

/-- The numeric code of a kind: the spec's own numbering (R130; D13). -/
def FatalKind.code : FatalKind → Nat
  | .stackUnderflow => 1
  | .stackOverflow => 2
  | .pcOutOfBounds => 3
  | .memoryOutOfBounds => 4
  | .unsupportedOpcode => 5

/-- The fatal report (R130): the kind, the address fetched from, the word fetched (none where the fetch itself
was refused) and the Machine State at the point of detection. -/
structure FatalReport where
  kind : FatalKind
  fetchAddr : Word
  word : Option Word
  state : State
  deriving DecidableEq, Repr

/-- Why a step answers no next state. -/
inductive Fault where
  /-- A fatal condition ends the run (R130). Raised by RET, CALL, DRW, the unsupported words under policy
  `Fault`, and the fetch. Safe: the spec's own stop. -/
  | fatal (report : FatalReport)
  /-- The run has ended: `run` is `Quit` and no further cycle is scheduled (R71). Raised by `step` in such a
  state only. Safe: the machine is stuck there (DESIGN CHOICE, log 6). -/
  | halted
  deriving DecidableEq, Repr

/-- Why a meaning is missing. -/
inductive Refusal where
  /-- An instruction without a meaning in this model. Raised only by an arm of `exec` that has none; no arm of
  this model does. Safe. -/
  | notModelled (mnemonic : String)
  deriving DecidableEq, Repr

/-- The state after construction with no program image loaded, under the default parameters (R26, R150).
The spec gives `mem`, `pc`, `stack` and `run` from its source; `v`, `i`, `fb`, `dt`, `st`, `keys` and `current`
are the values of `RESET_FILL = Zero` (R26; D3; DESIGN CHOICE, unsafe, log 4). -/
def State.reset : State where
  mem := []
  v := Vector.replicate 16 0
  i := 0
  pc := BitVec.ofNat 16 Config.default.programBase
  stack := []
  fb := Framebuffer.blank Config.default.fbW Config.default.fbH
  dt := 0
  st := 0
  keys := Vector.replicate 16 false
  run := .running
  current := none
  cfg := Config.default
  inputs := []
  output := []

end Sys2Proof.Machine
end

