-- ==== Sys2Proof/Machine/Ops.lean ====
section
/-! DEFINITION. The shared operations over registers, memory, call stack and framebuffer, and raising a fatal
condition (spec/00_scope.md R8 names them). -/

namespace Sys2Proof.Machine

/-! ### Registers (R8, R11, R13, R14) -/

/-- `V[r]`. -/
def State.reg (s : State) (r : RegIdx) : Byte := s.v[r]

/-- `V[r] <- b`. -/
def State.setReg (s : State) (r : RegIdx) (b : Byte) : State := { s with v := s.v.set r b }

/-- `I <- w`. -/
def State.setIndex (s : State) (w : Word) : State := { s with i := w }

/-- `pc <- w`. -/
def State.setPc (s : State) (w : Word) : State := { s with pc := w }

/-- `S <- xs`. -/
def State.setStack (s : State) (xs : List Word) : State := { s with stack := xs }

/-- `FB <- fb`. -/
def State.setFb (s : State) (fb : Framebuffer) : State := { s with fb := fb }

/-! ### Memory (spec/20_memory.md R30, R33; spec/70_reset_and_hazards.md R150) -/

/-- The byte at address `a`: the listed one, or what construction left there. -/
def Memory.read (c : Config) (a : Nat) : Memory → Byte
  | [] => c.constructedByte a
  | (k, b) :: m => if k = a then b else Memory.read c a m

/-- The memory with byte `b` at address `a`, in canonical form. Only construction and the Loader write
memory (R35): no instruction uses this. -/
def Memory.write (c : Config) (a : Nat) (b : Byte) : Memory → Memory
  | [] => if b = c.constructedByte a then [] else [(a, b)]
  | (k, x) :: m =>
    if a < k then
      if b = c.constructedByte a then (k, x) :: m else (a, b) :: (k, x) :: m
    else if a = k then
      if b = c.constructedByte a then m else (a, b) :: m
    else (k, x) :: Memory.write c a b m

/-- The Loader's placement of an image: its bytes at consecutive addresses from `base` (R150 step (3)). -/
def Memory.load (c : Config) (base : Nat) : List Byte → Memory → Memory
  | [], m => m
  | b :: bs, m => Memory.load c (base + 1) bs (Memory.write c base b m)

/-- The addresses of the listed bytes rise strictly, from above `lo` where that is given. -/
def Memory.rising (lo : Option Nat) : Memory → Bool
  | [] => true
  | (k, _) :: m => (match lo with | none => true | some l => decide (l < k)) && Memory.rising (some k) m

/-- The canonical form: addresses strictly rising and inside the array (R30), no entry equal to what an unlisted
address reads as. -/
def Memory.wf (c : Config) (m : Memory) : Bool :=
  Memory.rising none m && m.all fun e => decide (e.1 < c.memSize) && (e.2 != c.constructedByte e.1)

/-- `MemRead(a, 1)` (R33). Every caller has checked `a <= MEM_SIZE - 1` first (R33; log 27). -/
def State.memRead (s : State) (a : Nat) : Byte := Memory.read s.cfg a s.mem

/-! ### Fatal conditions (spec/60_exceptions.md R130, R138) -/

/-- `raise Fatal(kind)`: the one way a condition ends the run. Nothing is saved in the machine, no mode changes
and control goes to no address (R138); the report carries the state at the point of detection (R130). -/
def raiseFatal (kind : FatalKind) (fetchAddr : Word) (word : Option Word) (s : State) :
    Host.Outcome State Fault Refusal :=
  .fault (.fatal { kind := kind, fetchAddr := fetchAddr, word := word, state := s })

/-- `raise Fatal(kind)` by the executing instruction: `pc` holds the fetch address plus 2 (R14, R64) and
`current_instruction` the word fetched (R65), so these two give the report's `fetch_addr` and `word`
(DEDUCED, safe, log 18). -/
def raiseInExecute (kind : FatalKind) (s : State) : Host.Outcome State Fault Refusal :=
  raiseFatal kind (s.pc - 2) (s.current.map fun d => d.word) s

/-! ### Call stack (spec/10_state.md R16) -/

/-- `Push(v)`: nothing where the stack is at capacity, and then it is unchanged. -/
def State.push? (s : State) (w : Word) : Option State :=
  if s.stack.length = s.cfg.stackCap then none else some (s.setStack (s.stack ++ [w]))

/-- `Pop()`: the top and the stack without it; nothing where the stack is empty. -/
def State.pop? (s : State) : Option (Word × State) :=
  match s.stack.getLast? with
  | none => none
  | some w => some (w, s.setStack s.stack.dropLast)

/-! ### Framebuffer (spec/10_state.md R18) -/

/-- The pixel at column `col`, row `row`. -/
def Framebuffer.get (fb : Framebuffer) (col row : Nat) : Bool := (fb.getD row []).getD col false

/-- The framebuffer with the pixel at column `col`, row `row` set to `b`. -/
def Framebuffer.put (fb : Framebuffer) (col row : Nat) (b : Bool) : Framebuffer :=
  fb.set row ((fb.getD row []).set col b)

/-- The framebuffer has `h` rows of `w` pixels. -/
def Framebuffer.sized (fb : Framebuffer) (w h : Nat) : Bool :=
  fb.length == h && fb.all fun r => r.length == w

/-- `FB[col, row]`. -/
def State.pixel (s : State) (col row : Nat) : Bool := s.fb.get col row

end Sys2Proof.Machine
end

