-- ==== Sys2Proof/Machine/Flags.lean ====
section
/-! DEFINITION. The machine's only flag: `V[0xF]` as collision flag (spec/10_state.md R12, spec/43_display.md R103). -/

namespace Sys2Proof.Machine

/-- The register that doubles as the collision flag (R12). -/
def flagReg : RegIdx := 0xF

/-- The value the flag takes: 1 on a collision, else 0 (R103). -/
def flagValue (collision : Bool) : Byte := if collision then 1 else 0

/-- `V[0xF] <- collision` (R103). -/
def State.setCollision (s : State) (collision : Bool) : State := s.setReg flagReg (flagValue collision)

/-- A sprite bit collides iff it is 1 and the pixel under it is lit (R103). -/
def collides (bit pixel : Bool) : Bool := bit && pixel

/-- XOR of a pixel with a sprite bit (R103). -/
def xorPixel (pixel bit : Bool) : Bool := pixel ^^ bit

end Sys2Proof.Machine
end

