-- ==== Sys2Proof/Machine/Operands.lean ====
section
/-! DEFINITION. How each operand form of spec/30_encoding.md R48 and R49 turns into a value, and the derived
operands of draw sprite (spec/43_display.md R102, R104, R105). -/

namespace Sys2Proof.Machine

/-- `zext_16(nnn)` (R49). -/
def addressOperand (nnn : Addr) : Word := nnn.setWidth 16

/-- The count `n` of DRW, 0 to 15 (R49). -/
def heightOperand (n : Nibble) : Nat := n.toNat

/-- Column of a sprite's origin: `V[x] mod FB_W` (R102). -/
def originX (s : State) (x : RegIdx) : Nat := (s.reg x).toNat % s.cfg.fbW

/-- Row of a sprite's origin: `V[y] mod FB_H` (R102). -/
def originY (s : State) (y : RegIdx) : Nat := (s.reg y).toNat % s.cfg.fbH

/-- Rows of a sprite that lie on the screen: `min(n, FB_H - oy)` (R104). -/
def rowsOnScreen (s : State) (y : RegIdx) (n : Nibble) : Nat :=
  min (heightOperand n) (s.cfg.fbH - originY s y)

/-- Address of sprite row `i`: `I + i` in exact arithmetic (spec/20_memory.md R36). -/
def spriteAddr (s : State) (i : Nat) : Nat := s.i.toNat + i

/-- A row that would be drawn lies beyond memory (R105). -/
def spriteBeyondMemory (s : State) (rows : Nat) : Bool :=
  decide (rows > 0 ∧ s.i.toNat + rows - 1 > s.cfg.memSize - 1)

/-- Bit of a sprite byte for column offset `c`: bit 7 is the leftmost pixel (R101). -/
def spriteBit (b : Byte) (c : Nat) : Bool := b.getLsbD (7 - c)

end Sys2Proof.Machine
end

