-- ==== Sys2Proof/Machine/Display.lean ====
section
/-! DEFINITION. Framebuffer and sprite blit: CLS, DRW (spec/43_display.md). -/

namespace Sys2Proof.Machine

/-- A blit in progress: the framebuffer so far and whether a drawn 1-bit has met a lit pixel (R103). -/
structure Blit where
  fb : Framebuffer
  collision : Bool
  deriving DecidableEq, Repr

/-- One pixel of R101's inner loop: note a collision, then XOR the pixel with the bit (R103). -/
def Blit.pixel (p : Blit) (col row : Nat) (bit : Bool) : Blit where
  fb := p.fb.put col row (xorPixel (p.fb.get col row) bit)
  collision := p.collision || collides bit (p.fb.get col row)

/-- R101's inner loop over the column offsets `cs` of a sprite byte `b` whose left column is `ox`: the first
column beyond the right edge ends the row (R104). -/
def Blit.columns (w : Nat) (b : Byte) (ox row : Nat) : List Nat → Blit → Blit
  | [], p => p
  | c :: cs, p =>
    if ox + c > w - 1 then p
    else Blit.columns w b ox row cs (p.pixel (ox + c) row (spriteBit b c))

/-- R101's outer loop over the sprite rows `is`, drawn from screen row `oy` down. -/
def Blit.rows (s : State) (ox oy : Nat) : List Nat → Blit → Blit
  | [], p => p
  | i :: is, p =>
    Blit.rows s ox oy is
      (Blit.columns s.cfg.fbW (s.memRead (spriteAddr s i)) ox (oy + i) (List.range 8) p)

/-- The blit DRW makes: no collision yet, the framebuffer as it stands, every row on screen (R101, R104). -/
def drawSprite (s : State) (x y : RegIdx) (n : Nibble) : Blit :=
  Blit.rows s (originX s x) (originY s y) (List.range (rowsOnScreen s y n)) ⟨s.fb, false⟩

/-- CLS (R100): every pixel false; the `x` nibble is ignored (R52). -/
def execCls (_x : Nibble) (s : State) : Host.Outcome State Fault Refusal :=
  .next (s.setFb (Framebuffer.blank s.cfg.fbW s.cfg.fbH))

/-- DRW Vx, Vy, n (R101): fatal MemoryOutOfBounds before any change where a drawn row lies beyond memory (R105);
else the blit, with `V[0xF]` the collision flag. The origin is read before `V[0xF]` is written (R102). -/
def execDrw (x y : RegIdx) (n : Nibble) (s : State) : Host.Outcome State Fault Refusal :=
  if spriteBeyondMemory s (rowsOnScreen s y n) then raiseInExecute .memoryOutOfBounds s
  else
    let p := drawSprite s x y n
    .next ((s.setFb p.fb).setCollision p.collision)

end Sys2Proof.Machine
end

