-- ==== Sys2Proof/Machine/Flow.lean ====
section
/-! DEFINITION. Control transfer: RET, JP, CALL (spec/41_flow.md). `pc` already holds the fetch address plus 2 (R64). -/

namespace Sys2Proof.Machine

/-- RET (R80): `pc <- Pop()`; fatal StackUnderflow on an empty stack (R131). The `x` nibble is ignored (R52). -/
def execRet (_x : Nibble) (s : State) : Host.Outcome State Fault Refusal :=
  match s.pop? with
  | none => raiseInExecute .stackUnderflow s
  | some (w, s') => .next (s'.setPc w)

/-- JP nnn (R81): `pc <- zext_16(nnn)`; the target is not checked. -/
def execJp (nnn : Addr) (s : State) : Host.Outcome State Fault Refusal :=
  .next (s.setPc (addressOperand nnn))

/-- CALL nnn (R82): `Push(pc)`, then `pc <- zext_16(nnn)`; fatal StackOverflow at capacity, and then neither the
stack nor `pc` changes (R132). -/
def execCall (nnn : Addr) (s : State) : Host.Outcome State Fault Refusal :=
  match s.push? s.pc with
  | none => raiseInExecute .stackOverflow s
  | some s' => .next (s'.setPc (addressOperand nnn))

end Sys2Proof.Machine
end

