-- ==== Sys2Proof/Machine/Register.lean ====
section
/-! DEFINITION. Register loads and arithmetic: LD Vx, ADD Vx, LD I (spec/42_register.md). -/

namespace Sys2Proof.Machine

/-- LD Vx, nn (R90): `V[x] <- nn`. -/
def execLdV (x : RegIdx) (nn : Byte) (s : State) : Host.Outcome State Fault Refusal :=
  .next (s.setReg x nn)

/-- ADD Vx, nn (R91): `V[x] <- (V[x] + nn) mod 2^8`, no carry into `V[0xF]`. -/
def execAddV (x : RegIdx) (nn : Byte) (s : State) : Host.Outcome State Fault Refusal :=
  .next (s.setReg x (s.reg x + nn))

/-- LD I, nnn (R92): `I <- zext_16(nnn)`. -/
def execLdI (nnn : Addr) (s : State) : Host.Outcome State Fault Refusal :=
  .next (s.setIndex (addressOperand nnn))

end Sys2Proof.Machine
end

