-- ==== Sys2Proof/Machine/Unsupported.lean ====
section
/-! DEFINITION. Unsupported words (spec/44_unsupported.md): a no-op under `UNSUPPORTED_POLICY = NoOp`, the fatal
condition UnsupportedOpcode under `Fault` (R120 to R122; DESIGN CHOICE of the default is the spec's D9, log 11). -/

namespace Sys2Proof.Machine

/-- `Unsupported(d)` (R120): what every unsupported word does; `pc` is already past the word. -/
def unsupported (s : State) : Host.Outcome State Fault Refusal :=
  match s.cfg.unsupportedPolicy with
  | .noOp => .next s
  | .fault => raiseInExecute .unsupportedOpcode s

/-- Class 0x0 with `nn` neither 0xE0 nor 0xEE (R121). -/
def execUnsupported0 (_x : Nibble) (_nn : Byte) (s : State) : Host.Outcome State Fault Refusal := unsupported s

/-- Class 0x3 (R120). -/
def execUnsupported3 (_bits : Addr) (s : State) : Host.Outcome State Fault Refusal := unsupported s

/-- Class 0x4 (R120). -/
def execUnsupported4 (_bits : Addr) (s : State) : Host.Outcome State Fault Refusal := unsupported s

/-- Class 0x5 (R120). -/
def execUnsupported5 (_bits : Addr) (s : State) : Host.Outcome State Fault Refusal := unsupported s

/-- Class 0x8 (R120). -/
def execUnsupported8 (_bits : Addr) (s : State) : Host.Outcome State Fault Refusal := unsupported s

/-- Class 0x9 (R120). -/
def execUnsupported9 (_bits : Addr) (s : State) : Host.Outcome State Fault Refusal := unsupported s

/-- Class 0xB (R120). -/
def execUnsupportedB (_bits : Addr) (s : State) : Host.Outcome State Fault Refusal := unsupported s

/-- Class 0xC (R120). -/
def execUnsupportedC (_bits : Addr) (s : State) : Host.Outcome State Fault Refusal := unsupported s

/-- Class 0xE (R120). -/
def execUnsupportedE (_bits : Addr) (s : State) : Host.Outcome State Fault Refusal := unsupported s

/-- Class 0xF (R120). -/
def execUnsupportedF (_bits : Addr) (s : State) : Host.Outcome State Fault Refusal := unsupported s

end Sys2Proof.Machine
end

