-- ==== Sys2Proof/Machine/Dispatch.lean ====
section
/-! DEFINITION. `Execute(d)` (spec/30_encoding.md R51): one arm per instruction, each one call of its meaning. -/

namespace Sys2Proof.Machine

def exec (i : Instr) (s : State) : Host.Outcome State Fault Refusal :=
  match i with
  | .cls x => Sys2Proof.Machine.execCls x s
  | .ret x => Sys2Proof.Machine.execRet x s
  | .jp nnn => Sys2Proof.Machine.execJp nnn s
  | .call nnn => Sys2Proof.Machine.execCall nnn s
  | .ldV x nn => Sys2Proof.Machine.execLdV x nn s
  | .addV x nn => Sys2Proof.Machine.execAddV x nn s
  | .ldI nnn => Sys2Proof.Machine.execLdI nnn s
  | .drw x y n => Sys2Proof.Machine.execDrw x y n s
  | .unsupported0 x nn => Sys2Proof.Machine.execUnsupported0 x nn s
  | .unsupported3 bits => Sys2Proof.Machine.execUnsupported3 bits s
  | .unsupported4 bits => Sys2Proof.Machine.execUnsupported4 bits s
  | .unsupported5 bits => Sys2Proof.Machine.execUnsupported5 bits s
  | .unsupported8 bits => Sys2Proof.Machine.execUnsupported8 bits s
  | .unsupported9 bits => Sys2Proof.Machine.execUnsupported9 bits s
  | .unsupportedB bits => Sys2Proof.Machine.execUnsupportedB bits s
  | .unsupportedC bits => Sys2Proof.Machine.execUnsupportedC bits s
  | .unsupportedE bits => Sys2Proof.Machine.execUnsupportedE bits s
  | .unsupportedF bits => Sys2Proof.Machine.execUnsupportedF bits s

end Sys2Proof.Machine
end

