-- ==== Sys2Proof/Machine/Cycle.lean ====
section
/-! DEFINITION. The controller's cycle (spec/40_controller.md R60 to R74), step by step. -/

namespace Sys2Proof.Machine

/-! ### Step 1: input (R61, R62) -/

/-- The input of the next cycle: the oldest waiting one, or a quiet host (log 5). -/
def State.nextInput (s : State) : HostInput := s.inputs.headD .quiet

/-- The state once the next cycle's input is taken from the list. -/
def State.takeInput (s : State) : State := { s with inputs := s.inputs.tail }

/-- The run-state transitions of R62: quit from any state and over a pause edge (D10), a pause edge toggles
Running and Paused, and there are no others; Quit is terminal (R71). -/
def RunState.after (r : RunState) (inp : HostInput) : RunState :=
  if inp.quit then .quit
  else if inp.pauseEdge then
    match r with
    | .running => .paused
    | .paused => .running
    | .quit => .quit
  else r

/-- Step 1: `K` is overwritten wholesale (R61), then the run state moves (R62). -/
def State.applyInput (s : State) (inp : HostInput) : State :=
  { s with keys := inp.keys, run := s.run.after inp }

/-! ### Step 3: fetch and advance (R63, R64) -/

/-- The bound check of R63: neither the second byte nor the advanced pc leaves memory. -/
def State.fetchInBounds (s : State) : Bool := decide (¬ s.pc.toNat + 2 > s.cfg.memSize - 1)

/-- The big-endian word at address `a` (R32, R63). -/
def State.wordAt (s : State) (a : Nat) : Word := wordOfBytes (s.memRead a) (s.memRead (a + 1))

/-- The word the next fetch reads (R63). -/
def State.fetchedWord (s : State) : Word := s.wordAt s.pc.toNat

/-- The state the executor runs in: `pc` advanced by 2 (R64), `current_instruction` the decoded word (R65). -/
def State.fetched (s : State) : State :=
  { s with pc := s.pc + 2, current := some (fields s.fetchedWord) }

/-! ### Steps 5 and 6: timer tick and present (R69, R70) -/

/-- A timer decremented toward zero (R69). -/
def tickTimer (t : Byte) : Byte := if t.toNat > 0 then t - 1 else t

/-- Both timers, independently (R69). Pacing (R68) changes no state. -/
def State.tick (s : State) : State := { s with dt := tickTimer s.dt, st := tickTimer s.st }

/-- Hand the framebuffer to the Renderer Bridge (R70): recorded (R39), no machine state written. -/
def State.present (s : State) : State := { s with output := .frame s.fb :: s.output }

/-- A paused cycle hands the unchanged framebuffer over again, or nothing (R70; D17; log 16). -/
def State.presentPaused (s : State) : State := { s with output := .repeatAllowed s.fb :: s.output }

/-- What follows the execute step: the tick and the hand-over, unless a fatal condition ended the cycle (R66). -/
def finishCycle : Host.Outcome State Fault Refusal → Host.Outcome State Fault Refusal
  | .next s => .next s.tick.present
  | .fault r => .fault r
  | .refused r => .refused r

/-! ### The cycle (R60) -/

/-- Steps 3 to 6 of an executed cycle. A next state whose `run` is Quit is the outcome Halted (R71; log 6). -/
def executedCycle (s : State) : Host.Outcome State Fault Refusal :=
  if s.fetchInBounds then finishCycle (exec (decode s.fetchedWord) s.fetched)
  else raiseFatal .pcOutOfBounds s.pc none s

/-- Step 2 and what follows (R62, R71), in the state step 1 leaves. -/
def State.afterInput (s : State) : Host.Outcome State Fault Refusal :=
  match s.run with
  | .paused => .next s.presentPaused
  | .quit => if s.cfg.quitCompletesCycle then executedCycle s else .next s
  | .running => executedCycle s

/-- `Cycle(s, in)` (R60), for a state whose `run` is not Quit. -/
def cycle (s : State) (inp : HostInput) : Host.Outcome State Fault Refusal := (s.applyInput inp).afterInput

/-- One cycle with the next input of the list; a state whose `run` is Quit has no further cycle (R71). -/
def State.stepCycle (s : State) : Host.Outcome State Fault Refusal :=
  if s.run = .quit then .fault .halted else cycle s.takeInput s.nextInput

/-! ### Placing one word where the next cycle fetches it -/

/-- The next cycle reaches the fetch step: its input neither pauses it nor ends it at step 2 (R62, R71). -/
def State.willFetch (s : State) : Bool :=
  match s.run, s.run.after s.nextInput with
  | .quit, _ => false
  | _, .running => true
  | _, .quit => s.cfg.quitCompletesCycle
  | _, .paused => false

/-- The state whose next cycle reaches the fetch step: unchanged where it does already; else running, with a
quiet input before the waiting ones. -/
def State.madeToFetch (s : State) : State :=
  if s.willFetch then s else { s with run := .running, inputs := .quiet :: s.inputs }

/-- The state whose pc a fetch accepts: unchanged where it does already; else at `PROGRAM_BASE`. -/
def State.madeFetchable (s : State) : State :=
  if s.fetchInBounds then s else { s with pc := BitVec.ofNat 16 s.cfg.programBase }

/-- The state with word `w` at address `a`, big-endian (R32). -/
def State.placeWord (s : State) (a : Nat) (w : Word) : State :=
  { s with mem := Memory.write s.cfg (a + 1) (lowByte w) (Memory.write s.cfg a (highByte w) s.mem) }

/-- The state with word `w` where its next cycle fetches (log 19). -/
def State.placeNextWord (s : State) (w : Word) : State :=
  let t := s.madeToFetch.madeFetchable
  t.placeWord t.pc.toNat w

end Sys2Proof.Machine
end

