-- ==== Sys2Proof/Machine/Step.lean ====
section
/-! DEFINITION. The step of the machine: one controller cycle (spec/00_scope.md R2). -/

namespace Sys2Proof.Machine

/-- One controller cycle (R60). -/
def step (s : State) : Host.Outcome State Fault Refusal := s.stepCycle

/-- The state with an instruction of the opcode table stored where the next step fetches it (log 19). -/
def State.withFetchWord (s : State) (nbits w : Nat) : State := s.placeNextWord (tableWord nbits w)

end Sys2Proof.Machine
end

