-- ==== Sys2Proof/WellFormed.lean ====
section
/-! DEFINITION. Which instruction terms stand for a word, and which configurations the spec allows. -/

namespace Sys2Proof

/-- An instruction term stands for a word of its own row: the class-0x0 unsupported row holds only words that
neither CLS nor RET selects (spec/30_encoding.md R50). Every other term has only values its fields admit. -/
def Instr.wf : Instr → Bool
  | .unsupported0 _ nn => nn != 0xE0 && nn != 0xEE
  | .cls _ | .ret _ | .jp _ | .call _ | .ldV _ _ | .addV _ _ | .ldI _ | .drw _ _ _ => true
  | .unsupported3 _ | .unsupported4 _ | .unsupported5 _ | .unsupported8 _ | .unsupported9 _ => true
  | .unsupportedB _ | .unsupportedC _ | .unsupportedE _ | .unsupportedF _ => true

/-- The instruction belongs to one of the ten unsupported rows (R50, R120, R121). -/
def Instr.unsupportedRow : Instr → Bool
  | .cls _ | .ret _ | .jp _ | .call _ | .ldV _ _ | .addV _ _ | .ldI _ | .drw _ _ _ => false
  | .unsupported0 _ _ | .unsupported3 _ | .unsupported4 _ | .unsupported5 _ | .unsupported8 _ => true
  | .unsupported9 _ | .unsupportedB _ | .unsupportedC _ | .unsupportedE _ | .unsupportedF _ => true

/-- The constraints of spec/00_scope.md R6 on the parameters, `FONT` having `FONT_LEN` bytes (R21).
A configuration with a framebuffer dimension 0 is refused (D14). -/
def Config.wf (c : Config) : Bool :=
  c.fontBase + c.fontLen ≤ c.programBase && c.programBase + 2 < c.memSize && c.memSize ≤ 65536 &&
  1 ≤ c.fbW && 1 ≤ c.fbH && c.font.length == c.fontLen

end Sys2Proof
end

