-- ==== Sys2Proof/Machine/Boot.lean ====
section
/-! DEFINITION. Construction of the Machine State for a loaded program (spec/70_reset_and_hazards.md R150 to R155). -/

namespace Sys2Proof.Machine

/-- Why construction fails, so that no cycle runs (R140). -/
inductive LoadError where
  /-- The image is longer than `MEM_SIZE - PROGRAM_BASE` (R153). -/
  | imageTooLarge
  /-- The parameters break a constraint of R6; a framebuffer dimension of 0 is refused (D14, log 28). -/
  | illegalConfiguration
  deriving DecidableEq, Repr

/-- A value for every component the source does not initialise (R26): under `RESET_FILL = Arbitrary` each is
chosen once at construction and is unconstrained. -/
structure ResetDraw where
  v : Vector Byte 16
  i : Word
  /-- The pixel at a column and row: true where the pair is listed. -/
  lit : List (Nat × Nat)
  dt : Byte
  st : Byte
  keys : KeyLatch
  current : Option DecodedInstruction
  deriving DecidableEq, Repr

/-- The draw of `RESET_FILL = Zero` (R26's third column). -/
def ResetDraw.zero : ResetDraw where
  v := Vector.replicate 16 0
  i := 0
  lit := []
  dt := 0
  st := 0
  keys := Vector.replicate 16 false
  current := none

/-- A framebuffer of the configured size with the listed pixels lit. -/
def ResetDraw.framebuffer (d : ResetDraw) (c : Config) : Framebuffer :=
  (List.range c.fbH).map fun row => (List.range c.fbW).map fun col => decide ((col, row) ∈ d.lit)

/-- The draw that a configuration takes: the zero one under `RESET_FILL = Zero` (R26). -/
def ResetDraw.under (d : ResetDraw) (c : Config) : ResetDraw :=
  match c.resetFill with
  | .zero => .zero
  | .arbitrary => d

/-- The constructed state (R150): memory zeroed, font written, image placed at `PROGRAM_BASE`, pc there, stack
empty, running, everything else from the draw (R26). -/
def constructed (c : Config) (draw : ResetDraw) (image : List Byte) (inputs : List HostInput) : State where
  mem := Memory.load c c.programBase image []
  v := (draw.under c).v
  i := (draw.under c).i
  pc := BitVec.ofNat 16 c.programBase
  stack := []
  fb := (draw.under c).framebuffer c
  dt := (draw.under c).dt
  st := (draw.under c).st
  keys := (draw.under c).keys
  run := .running
  current := (draw.under c).current
  cfg := c
  inputs := inputs
  output := []

/-- Construction with the image-size check (R153): the image is accepted iff its length is at most
`MEM_SIZE - PROGRAM_BASE`; an empty one is accepted (R154). -/
def construct (c : Config) (draw : ResetDraw) (image : List Byte) (inputs : List HostInput) :
    Except LoadError State :=
  if !c.wf then .error .illegalConfiguration
  else if image.length ≤ c.memSize - c.programBase then .ok (constructed c draw image inputs)
  else .error .imageTooLarge

end Sys2Proof.Machine
end

