-- ==== Sys2Proof/Machine/Run.lean ====
section
/-! DEFINITION. A run and its exit outcome (spec/40_controller.md R73). -/

namespace Sys2Proof.Machine

/-- How a run stands once the inputs it was given are used up. -/
inductive RunResult where
  /-- Every cycle answered Continue: the run has not ended. -/
  | unfinished (s : State)
  /-- A cycle answered Halted: success. -/
  | halted (s : State)
  /-- A cycle answered Fatal: failure, with the report. -/
  | fatal (r : FatalReport)
  /-- A cycle ran into an instruction without a meaning; no instruction of this model is one. -/
  | unmodelled (r : Refusal)
  deriving DecidableEq, Repr

/-- The run from state `s`, one cycle per host input (R73). -/
def runCycles (s : State) : List HostInput → RunResult
  | [] => .unfinished s
  | inp :: rest =>
    match cycle s inp with
    | .next t => if t.run = .quit then .halted t else runCycles t rest
    | .fault (.fatal r) => .fatal r
    | .fault .halted => .halted s
    | .refused r => .unmodelled r

/-- What the caller learns at the end of a run (R73, R142): success or failure, distinguishable. -/
inductive ExitOutcome where
  | success
  | fatalFailure (r : FatalReport)
  | loadFailure (e : LoadError)
  deriving DecidableEq, Repr

/-- The exit outcome of a run that has ended; none while it goes on. -/
def RunResult.exit : RunResult → Option ExitOutcome
  | .halted _ => some .success
  | .fatal r => some (.fatalFailure r)
  | .unfinished _ => none
  | .unmodelled _ => none

/-- A whole run: construction, then one cycle per input; a load error starts no cycle (R140). -/
def exitOf (c : Config) (draw : ResetDraw) (image : List Byte) (inputs : List HostInput) : Option ExitOutcome :=
  match construct c draw image [] with
  | .error e => some (.loadFailure e)
  | .ok s => (runCycles s inputs).exit

end Sys2Proof.Machine
end

