-- ==== Sys2Proof/Safety.lean ====
section
/-! DEFINITION. The invariants of spec/10_state.md R27 and the terms in which statements are made. -/

namespace Sys2Proof.Machine

/-- What holds in every state reachable from construction (R27), with the facts about the model's own data
that R6, R18 and R30 give it: a legal configuration, canonical memory, a framebuffer of the configured size. -/
structure State.Inv (s : State) : Prop where
  /-- R6. -/
  cfgWf : s.cfg.wf = true
  /-- R30: canonical memory inside the array. -/
  memWf : Memory.wf s.cfg s.mem = true
  /-- R18. -/
  fbSized : s.fb.sized s.cfg.fbW s.cfg.fbH = true
  /-- R27, item 1. -/
  depth : s.stack.length ≤ s.cfg.stackCap
  /-- R27, item 2. -/
  pcBound : s.pc.toNat ≤ max (s.cfg.memSize - 1) 0x0FFF
  /-- R27, item 3. -/
  entries : ∀ w ∈ s.stack, w.toNat ≤ s.cfg.memSize - 1

/-- What `RESET_FILL = Zero` adds (R27, item 5): `I` is a 12-bit address and both timers stay 0. -/
structure State.ZeroFill (s : State) : Prop where
  index : s.i.toNat ≤ 0x0FFF
  delay : s.dt = 0
  sound : s.st = 0

/-- The rows of R62's table in which steps 3 to 6 run: a quit that completes its cycle (R71), a running machine
without a pause edge, a paused one with it. -/
abbrev State.Executes (s : State) : Prop :=
  (s.run ≠ .quit ∧ s.nextInput.quit = true ∧ s.cfg.quitCompletesCycle = true) ∨
  (s.nextInput.quit = false ∧
    ((s.run = .running ∧ s.nextInput.pauseEdge = false) ∨ (s.run = .paused ∧ s.nextInput.pauseEdge = true)))

/-- The rows of R62's table that leave the machine paused. -/
abbrev State.Pauses (s : State) : Prop :=
  s.nextInput.quit = false ∧
    ((s.run = .running ∧ s.nextInput.pauseEdge = true) ∨ (s.run = .paused ∧ s.nextInput.pauseEdge = false))

/-- The fetch check of R63 passes. -/
abbrev State.FetchFits (s : State) : Prop := s.pc.toNat + 2 ≤ s.cfg.memSize - 1

/-- The state after step 1 of the next cycle: its input taken, `K` and `run` written (R61, R62), all else as before. -/
def State.begun (s : State) : State :=
  { s with inputs := s.inputs.tail, keys := s.nextInput.keys, run := s.run.after s.nextInput }

/-- The word `w` lies at pc, big-endian (R32): its high byte at pc, its low byte at pc + 1. -/
abbrev State.HoldsAtPc (s : State) (w : Word) : Prop :=
  (s.memRead s.pc.toNat).toNat = w.toNat / 256 ∧ (s.memRead (s.pc.toNat + 1)).toNat = w.toNat % 256

/-- What no instruction writes (R25): every byte of memory, the timers, the latch, the run state,
`current_instruction`, and the model's own fields. -/
structure State.RestKept (s t : State) : Prop where
  memory : ∀ a, t.memRead a = s.memRead a
  delay : t.dt = s.dt
  sound : t.st = s.st
  latch : t.keys = s.keys
  runState : t.run = s.run
  diagnostic : t.current = s.current
  parameters : t.cfg = s.cfg
  waiting : t.inputs = s.inputs
  shown : t.output = s.output

/-- Rows of the sprite DRW `x y n` draws in `s` (R104): `min(n, FB_H - V[y] mod FB_H)`. -/
def spriteRows (s : State) (y : RegIdx) (n : Nibble) : Nat :=
  min n.toNat (s.cfg.fbH - (s.reg y).toNat % s.cfg.fbH)

/-- A 1-bit of the sprite that DRW `x y n` would draw in `s` lies at column `col`, row `row` (R101 to R104, not as
the loop but by where a pixel lies): the row is one of the rows on screen, the column one of the eight of a sprite
byte and on screen, and the byte of that row, at `I` plus its number, has the bit, counted from the left, set. -/
def spriteCovers (s : State) (x y : RegIdx) (n : Nibble) (col row : Nat) : Bool :=
  let ox := (s.reg x).toNat % s.cfg.fbW
  let oy := (s.reg y).toNat % s.cfg.fbH
  decide (oy ≤ row ∧ row < oy + spriteRows s y n) &&
  decide (ox ≤ col ∧ col ≤ min (ox + 7) (s.cfg.fbW - 1)) &&
  (s.memRead (s.i.toNat + (row - oy))).getLsbD (7 - (col - ox))

/-- Execute instructions one after another, each in the state the one before leaves. -/
def execAll : List Instr → State → Host.Outcome State Fault Refusal
  | [], s => .next s
  | i :: is, s =>
    match exec i s with
    | .next t => execAll is t
    | .fault r => .fault r
    | .refused r => .refused r

end Sys2Proof.Machine
end

