-- ==== Sys2Proof/Certificates/Slice0/Obligations.lean ====
section
/-! DEFINITION. The statements for the provers, from the numbered rules of spec/. -/

open Sys2Proof Sys2Proof.Machine

/-! ### Encoding (spec/30_encoding.md) -/

/-- Every well-formed instruction decodes from its own encoding, every operand at every value. That
the ignored bits are operands of the term is the model's choice (log 20). -/
def Obligations.DecodeOfEncodeIsTheInstruction : Prop :=
  ∀ i : Instr, i.wf = true → decode (encode i) = i

/-- Decoding is total (R47) and every word is the encoding of the well-formed instruction it decodes to. That no bit
is lost, the ignored ones of R48 included, is the model's choice and no rule: it keeps them in the term (log 20). -/
def Obligations.EncodeOfDecodeIsTheWord : Prop :=
  ∀ w : Word, (decode w).wf = true ∧ encode (decode w) = w

/-- R46: the fields are the documented bit ranges of the word, as numbers; and they overlap as the rule says. -/
def Obligations.DecodedFieldsAreTheDocumentedBitRanges : Prop :=
  ∀ w : Word,
    (fields w).word = w ∧
    (fields w).cls.toNat = w.toNat / 4096 ∧
    (fields w).x.toNat = w.toNat / 256 % 16 ∧
    (fields w).y.toNat = w.toNat / 16 % 16 ∧
    (fields w).n.toNat = w.toNat % 16 ∧
    (fields w).nn.toNat = w.toNat % 256 ∧
    (fields w).nnn.toNat = w.toNat % 4096 ∧
    (fields w).nn = (fields w).y ++ (fields w).n ∧
    (fields w).nnn = (fields w).x ++ (fields w).nn

/-- R50, R51: a word selects a supported instruction iff its masked bits match, with the operands of the word's
fields; every other word selects an unsupported row of its class. That `nn` alone is the key inside class 0x0, so
that CLS and RET ignore the `x` nibble and every other `nn` is unsupported, is the spec's own decision D8 (R52,
R121; log 10). That the ignored bits stand in the instruction is the model's choice (log 20). -/
def Obligations.WordsSelectTheirOpcodeRow : Prop :=
  ∀ w : Word,
    (w &&& 0xF0FF = 0x00E0 ↔ decode w = .cls (fields w).x) ∧
    (w &&& 0xF0FF = 0x00EE ↔ decode w = .ret (fields w).x) ∧
    (w &&& 0xF000 = 0x1000 ↔ decode w = .jp (fields w).nnn) ∧
    (w &&& 0xF000 = 0x2000 ↔ decode w = .call (fields w).nnn) ∧
    (w &&& 0xF000 = 0x6000 ↔ decode w = .ldV (regOf (fields w).x) (fields w).nn) ∧
    (w &&& 0xF000 = 0x7000 ↔ decode w = .addV (regOf (fields w).x) (fields w).nn) ∧
    (w &&& 0xF000 = 0xA000 ↔ decode w = .ldI (fields w).nnn) ∧
    (w &&& 0xF000 = 0xD000 ↔
      decode w = .drw (regOf (fields w).x) (regOf (fields w).y) (fields w).n) ∧
    (w &&& 0xF000 = 0x0000 ∧ w &&& 0xF0FF ≠ 0x00E0 ∧ w &&& 0xF0FF ≠ 0x00EE ↔
      decode w = .unsupported0 (fields w).x (fields w).nn) ∧
    (w &&& 0xF000 = 0x3000 ↔ decode w = .unsupported3 (fields w).nnn) ∧
    (w &&& 0xF000 = 0x4000 ↔ decode w = .unsupported4 (fields w).nnn) ∧
    (w &&& 0xF000 = 0x5000 ↔ decode w = .unsupported5 (fields w).nnn) ∧
    (w &&& 0xF000 = 0x8000 ↔ decode w = .unsupported8 (fields w).nnn) ∧
    (w &&& 0xF000 = 0x9000 ↔ decode w = .unsupported9 (fields w).nnn) ∧
    (w &&& 0xF000 = 0xB000 ↔ decode w = .unsupportedB (fields w).nnn) ∧
    (w &&& 0xF000 = 0xC000 ↔ decode w = .unsupportedC (fields w).nnn) ∧
    (w &&& 0xF000 = 0xE000 ↔ decode w = .unsupportedE (fields w).nnn) ∧
    (w &&& 0xF000 = 0xF000 ↔ decode w = .unsupportedF (fields w).nnn)

/-- Words of spec/95_test_vectors.md decode as its tables say: one for each of the eight supported instructions
and four unsupported ones. That 0x01E0 is CLS, 0x0FEE is RET, and 0x0000 and 0x00FF are unsupported, are instances
of the spec's own decision D8 (log 10); that a term keeps its ignored bits is the model's choice (log 20). -/
def Obligations.TabledWordsDecodeAsTabled : Prop :=
  decode 0x01E0 = .cls 1 ∧ decode 0x0FEE = .ret 0xF ∧ decode 0x1ABC = .jp 0xABC ∧
  decode 0x2300 = .call 0x300 ∧ decode 0x6A05 = .ldV 0xA 0x05 ∧ decode 0x7A02 = .addV 0xA 0x02 ∧
  decode 0xA123 = .ldI 0x123 ∧ decode 0xD12F = .drw 1 2 0xF ∧ decode 0x0000 = .unsupported0 0 0x00 ∧
  decode 0x00FF = .unsupported0 0 0xFF ∧ decode 0x8AB4 = .unsupported8 0xAB4 ∧
  decode 0xFFFF = .unsupportedF 0xFFF

/-- R32, R45: from bytes in memory order, high byte first, the decoder reads back the instruction and leaves the
bytes after it. -/
def Obligations.BytesOfAnInstructionDecodeBack : Prop :=
  ∀ (i : Instr) (rest : List Byte), i.wf = true →
    decodeBytes (encodeBytes i ++ rest) = .ok (i, rest) ∧
    encodeBytes i = [BitVec.ofNat 8 ((encode i).toNat / 256), BitVec.ofNat 8 ((encode i).toNat % 256)]

/-! ### The cycle (spec/40_controller.md) -/

/-- A step runs the decoded instruction: where the next cycle executes, the fetch fits and the word `w` lies at
pc, the step is `exec` of the instruction `w` decodes to, in the state with the input taken, pc advanced by 2 and
`current_instruction` set; then the timers tick and the framebuffer is handed over. One instruction and one tick of each timer per executed
cycle, the tick after execute, is the spec's own decision D12 (log 14); the record of what is handed over is the
model's (log 17). -/
def Obligations.StepRunsTheFetchedInstruction : Prop :=
  ∀ (s : State) (w : Word), s.Executes → s.FetchFits → s.HoldsAtPc w →
    step s =
      match exec (decode w) { s.begun with pc := s.pc + 2, current := some (fields w) } with
      | .next t =>
        .next { t with
          dt := if t.dt = 0 then 0 else t.dt - 1
          st := if t.st = 0 then 0 else t.st - 1
          output := .frame t.fb :: t.output }
      | .fault f => .fault f
      | .refused q => .refused q

/-- R32, R63: the word fetched is the byte at pc times 256 plus the byte after it, and the executor runs with that
word's decoding, as the diagnostic copy of the next state shows (R65). -/
def Obligations.FetchedWordIsBigEndian : Prop :=
  ∀ s t : State, s.Executes → step s = .next t →
    ∃ w : Word, w.toNat = (s.memRead s.pc.toNat).toNat * 256 + (s.memRead (s.pc.toNat + 1)).toNat ∧
      t.current = some (fields w)

/-- R62: the run state after a cycle that goes on, by the transition table, for every input. -/
def Obligations.RunStateFollowsTheInputTable : Prop :=
  ∀ s t : State, step s = .next t →
    s.run ≠ .quit ∧
    (s.nextInput.quit = true → t.run = .quit) ∧
    (s.nextInput.quit = false → s.nextInput.pauseEdge = true → s.run = .running → t.run = .paused) ∧
    (s.nextInput.quit = false → s.nextInput.pauseEdge = true → s.run = .paused → t.run = .running) ∧
    (s.nextInput.quit = false → s.nextInput.pauseEdge = false → t.run = s.run)

/-- R61: every cycle, paused or not, overwrites the latch with the host's keys, and nothing writes it after that
in the cycle. The state of a fatal report shows the same. -/
def Obligations.LatchTakesTheHostKeys : Prop :=
  ∀ s : State,
    (∀ t, step s = .next t → t.keys = s.nextInput.keys) ∧
    (∀ r, step s = .fault (.fatal r) → r.state.keys = s.nextInput.keys)

/-- R72: a cycle that pauses or stays paused goes on and changes nothing but `K` (and the run state that step 1
sets): no pc, register, framebuffer, timer, stack or byte of memory. -/
def Obligations.PausedCycleChangesOnlyTheLatch : Prop :=
  ∀ s : State, s.Pauses → ∃ t, step s = .next t ∧
    t.keys = s.nextInput.keys ∧ t.run = .paused ∧
    (∀ a, t.memRead a = s.memRead a) ∧ (∀ r, t.reg r = s.reg r) ∧ t.i = s.i ∧ t.pc = s.pc ∧
    t.stack = s.stack ∧ t.fb = s.fb ∧ t.dt = s.dt ∧ t.st = s.st ∧ t.current = s.current

/-- R63, R133: where pc + 2 is beyond the last address the cycle ends in PcOutOfBounds, with pc unchanged and no
word in the report, nothing else changed but what step 1 wrote. The check point is the spec's own decision D4
(log 7). -/
def Obligations.FetchBeyondMemoryIsFatal : Prop :=
  ∀ s : State, s.Executes → s.pc.toNat + 2 > s.cfg.memSize - 1 →
    step s = .fault (.fatal { kind := .pcOutOfBounds, fetchAddr := s.pc, word := none, state := s.begun })

/-- R69: an executed cycle that goes on decrements each nonzero timer by 1 and leaves a zero timer; a paused cycle
leaves both; a fatal cycle leaves both. One tick per executed cycle is the spec's own decision D12 (log 14). -/
def Obligations.TimersTickOncePerExecutedCycle : Prop :=
  ∀ s : State,
    (s.Executes → ∀ t, step s = .next t →
      t.dt.toNat = s.dt.toNat - 1 ∧ t.st.toNat = s.st.toNat - 1) ∧
    (s.Pauses → ∀ t, step s = .next t → t.dt = s.dt ∧ t.st = s.st) ∧
    (∀ r, step s = .fault (.fatal r) → r.state.dt = s.dt ∧ r.state.st = s.st)

/-- R70, R39: an executed cycle hands over the framebuffer as the executor left it, and the hand-over writes no
machine state: what is recorded last is the framebuffer of the state after. A paused cycle records that the
unchanged framebuffer may have been handed over again (both are allowed, the spec's D17; the record's form is the
model's, log 16 and log 17). -/
def Obligations.CyclePresentsItsFramebuffer : Prop :=
  ∀ s t : State, step s = .next t →
    (s.Executes → t.output = .frame t.fb :: s.output) ∧
    (s.Pauses → t.output = .repeatAllowed s.fb :: s.output ∧ t.fb = s.fb)

/-- R71: Quit is terminal. A cycle that enters Quit without completing ends at step 2, Halted, with nothing
fetched; with `QUIT_COMPLETES_CYCLE` it executes; and from a state whose run state is Quit there is no further
cycle. The parameter is the spec's own decision D11 (log 12), the stop's name is the model's (log 6). -/
def Obligations.QuitEndsTheRun : Prop :=
  (∀ s : State, s.run ≠ .quit → s.nextInput.quit = true → s.cfg.quitCompletesCycle = false →
    step s = .next s.begun ∧ s.begun.run = .quit ∧ s.begun.pc = s.pc) ∧
  (∀ s t : State, s.run ≠ .quit → s.nextInput.quit = true → s.cfg.quitCompletesCycle = true → s.FetchFits →
    step s = .next t → t.run = .quit ∧ t.current = some (fields s.begun.fetchedWord)) ∧
  (∀ s : State, step s = .fault .halted ↔ s.run = .quit)

/-- R64: pc is advanced past the word before it executes and never after: an instruction that does not write pc
leaves it at the fetch address plus 2, and one that writes it (RET, JP, CALL) decides the next fetch address alone. -/
def Obligations.PcAdvancesPastTheWord : Prop :=
  ∀ (s t : State) (w : Word), s.Executes → s.cfg.memSize ≤ 65536 → s.HoldsAtPc w → step s = .next t →
    ((∀ q, decode w ≠ .ret q) → (∀ a, decode w ≠ .jp a) → (∀ a, decode w ≠ .call a) →
      t.pc.toNat = s.pc.toNat + 2) ∧
    (∀ a, decode w = .jp a ∨ decode w = .call a → t.pc.toNat = a.toNat) ∧
    (∀ q, decode w = .ret q → some t.pc = s.stack.getLast?)

/-- R82, R157 through a whole cycle: CALL pushes the address of the word after it and goes to its target. -/
def Obligations.CallCyclePushesTheNextAddress : Prop :=
  ∀ (s : State) (w : Word) (nnn : Addr), s.Executes → s.cfg.memSize ≤ 65536 → s.FetchFits → s.HoldsAtPc w →
    decode w = .call nnn → s.stack.length ≠ s.cfg.stackCap →
    ∃ t, step s = .next t ∧ t.pc.toNat = nnn.toNat ∧
      ∃ ra : Word, t.stack = s.stack ++ [ra] ∧ ra.toNat = s.pc.toNat + 2

/-! ### Fatal conditions (spec/60_exceptions.md) -/

/-- R130, R138: a fatal condition is precise. The report gives the address the cycle fetched from, the word (none
for PcOutOfBounds) and a state that is the state before the cycle with step 1's writes and, but for
PcOutOfBounds, pc advanced and `current_instruction` set: nothing else changed. The report's contents are the
spec's own decision D13 (log 18). -/
def Obligations.FatalReportIsPrecise : Prop :=
  ∀ (s : State) (r : FatalReport), step s = .fault (.fatal r) →
    r.fetchAddr = s.pc ∧
    ((r.kind = .pcOutOfBounds ∧ r.word = none ∧ r.state = s.begun) ∨
     (r.kind ≠ .pcOutOfBounds ∧ ∃ w, s.HoldsAtPc w ∧ r.word = some w ∧
        r.state = { s.begun with pc := s.pc + 2, current := some (fields w) }))

/-- R130's table, R137: each kind has its cause: what the fetched word decodes to and the condition that fails. -/
def Obligations.FatalKindsHaveTheirCauses : Prop :=
  ∀ (s : State) (r : FatalReport) (w : Word), s.HoldsAtPc w → step s = .fault (.fatal r) →
    match r.kind with
    | .stackUnderflow => (∃ q, decode w = .ret q) ∧ s.stack = []
    | .stackOverflow => (∃ a, decode w = .call a) ∧ s.stack.length = s.cfg.stackCap
    | .pcOutOfBounds => s.pc.toNat + 2 > s.cfg.memSize - 1
    | .memoryOutOfBounds => ∃ x y n, decode w = .drw x y n ∧ 0 < spriteRows s y n ∧
        s.i.toNat + spriteRows s y n - 1 > s.cfg.memSize - 1
    | .unsupportedOpcode => s.cfg.unsupportedPolicy = .fault ∧ (w &&& 0xF0FF ≠ 0x00E0) ∧
        (w &&& 0xF0FF ≠ 0x00EE) ∧
        w.toNat / 4096 ∈ [0x0, 0x3, 0x4, 0x5, 0x8, 0x9, 0xB, 0xC, 0xE, 0xF]

/-- R53, R60: a step ends in a next state or in a fatal condition, or the run state is already Quit: no word is
refused. In a state that R71 schedules no further cycle for, the stop `halted` is the model's choice (log 6). -/
def Obligations.StepNeverRefuses : Prop :=
  ∀ s : State, (∃ t, step s = .next t) ∨ (∃ r, step s = .fault (.fatal r)) ∨
    (s.run = .quit ∧ step s = .fault .halted)

/-! ### Construction and invariants (spec/70_reset_and_hazards.md, spec/10_state.md) -/

/-- R26 and R31: what the source fixes at construction, at the default parameters and with no image: pc 0x200, an
empty stack, running, and memory zero outside the font region 0 to 79, the font inside it. The default font's bytes
are from general knowledge (the spec's D2, log 3), the default sizes unaudited (D1, log 2). -/
def Obligations.ResetHoldsWhatTheSourceFixes : Prop :=
  State.reset.pc.toNat = 0x200 ∧ State.reset.stack = [] ∧ State.reset.run = .running ∧
  (∀ a, 80 ≤ a → State.reset.memRead a = 0) ∧
  (∀ a, a < 80 → some (State.reset.memRead a) = Config.defaultFont[a]?)

/-- The values of `RESET_FILL = Zero` (R26's third column; the spec's own decision D3, log 4): registers, index,
timers, latch and framebuffer zero or false, no diagnostic instruction. -/
def Obligations.ResetRestIsZero : Prop :=
  (∀ r, State.reset.reg r = 0) ∧ State.reset.i = 0 ∧ State.reset.dt = 0 ∧ State.reset.st = 0 ∧
  (∀ k : Fin 16, State.reset.keys[k] = false) ∧ State.reset.current = none ∧
  State.reset.fb.length = 32 ∧ (∀ row ∈ State.reset.fb, row.length = 64) ∧
  (∀ col row, State.reset.pixel col row = false)

/-- R153: under a legal configuration construction succeeds iff the image is at most `MEM_SIZE - PROGRAM_BASE`
bytes long; otherwise it fails with a load error and no cycle runs: the exit outcome is that error, whatever the
inputs. -/
def Obligations.ConstructionChecksTheImageSize : Prop :=
  ∀ (c : Config) (draw : ResetDraw) (image : List Byte) (inputs : List HostInput), c.wf = true →
    ((∃ s, construct c draw image inputs = .ok s) ↔ image.length ≤ c.memSize - c.programBase) ∧
    (image.length > c.memSize - c.programBase →
      construct c draw image inputs = .error .imageTooLarge ∧
      exitOf c draw image inputs = some (.loadFailure .imageTooLarge))

/-- R31, R150: after construction memory holds the image at `PROGRAM_BASE`, the font at `FONT_BASE` and zero
everywhere else. -/
def Obligations.ConstructedMemoryHoldsFontAndImage : Prop :=
  ∀ (c : Config) (draw : ResetDraw) (image : List Byte) (inputs : List HostInput) (s : State),
    construct c draw image inputs = .ok s → ∀ a,
      (c.programBase ≤ a → a < c.programBase + image.length →
        some (s.memRead a) = image[a - c.programBase]?) ∧
      (c.fontBase ≤ a → a < c.fontBase + c.fontLen → some (s.memRead a) = c.font[a - c.fontBase]?) ∧
      ((a < c.programBase ∨ c.programBase + image.length ≤ a) →
        (a < c.fontBase ∨ c.fontBase + c.fontLen ≤ a) → s.memRead a = 0)

/-- R27 holds of every constructed state, for every legal configuration, draw, image and input sequence; and under
`RESET_FILL = Zero` so does its item 5. -/
def Obligations.ConstructionMeetsTheInvariants : Prop :=
  ∀ (c : Config) (draw : ResetDraw) (image : List Byte) (inputs : List HostInput) (s : State),
    construct c draw image inputs = .ok s →
      s.Inv ∧ s.run = .running ∧ s.pc.toNat = c.programBase ∧ (c.resetFill = .zero → s.ZeroFill)

/-- The state after reset meets R27's invariants. -/
def Obligations.ResetMeetsTheInvariants : Prop := State.reset.Inv ∧ State.reset.ZeroFill

/-- R27, items 1 to 3, with the canonical form of memory and the size of the framebuffer: kept by every step, from
every state that has them and under every legal configuration. -/
def Obligations.StepKeepsTheInvariants : Prop :=
  ∀ s t : State, s.Inv → step s = .next t → t.Inv

/-- R27, item 5: `I` stays a 12-bit address and both timers stay zero. -/
def Obligations.StepKeepsZeroFill : Prop :=
  ∀ s t : State, s.ZeroFill → step s = .next t → t.ZeroFill

/-- R35, R27 item 4: no cycle writes memory: every address reads as before; nor does any cycle change a parameter
(R24). The spec marks R35 as its own inference. -/
def Obligations.StepNeverWritesMemory : Prop :=
  ∀ s t : State, step s = .next t → (∀ a, t.memRead a = s.memRead a) ∧ t.cfg = s.cfg

/-- A byte written reads back and no other address changes, in every canonical memory. -/
def Obligations.MemoryWriteReadsBackAndNothingElseMoves : Prop :=
  ∀ (c : Config) (m : Memory) (a : Nat) (b : Byte), Memory.wf c m = true → a < c.memSize →
    Memory.wf c (Memory.write c a b m) = true ∧ Memory.read c a (Memory.write c a b m) = b ∧
    ∀ k, k ≠ a → Memory.read c k (Memory.write c a b m) = Memory.read c k m

/-- The canonical form is one: memories that read alike everywhere are equal. -/
def Obligations.CanonicalMemoriesThatReadAlikeAreEqual : Prop :=
  ∀ (c : Config) (m m' : Memory), Memory.wf c m = true → Memory.wf c m' = true →
    (∀ a, Memory.read c a m = Memory.read c a m') → m = m'

/-- A word placed by `withFetchWord` is what the next step fetches and executes, from every state with a legal
configuration and canonical memory (log 19). -/
def Obligations.PlacedWordIsFetchedNext : Prop :=
  ∀ (s : State) (w : Word), s.cfg.wf = true → Memory.wf s.cfg s.mem = true →
    (s.withFetchWord 16 w.toNat).Executes ∧ (s.withFetchWord 16 w.toNat).FetchFits ∧
    (s.withFetchWord 16 w.toNat).HoldsAtPc w

/-! ### Control transfer (spec/41_flow.md) -/

/-- R80: RET takes the top of the stack as pc and removes it, whatever the ignored nibble; nothing else changes. -/
def Obligations.ReturnPopsTheTop : Prop :=
  ∀ (s : State) (q : Nibble) (xs : List Word) (w : Word), s.stack = xs ++ [w] →
    ∃ t, exec (.ret q) s = .next t ∧ t.pc = w ∧ t.stack = xs ∧
      (∀ r, t.reg r = s.reg r) ∧ t.i = s.i ∧ t.fb = s.fb ∧ s.RestKept t

/-- R131: RET on an empty stack raises StackUnderflow, in the meaning and through a whole cycle, where pc is left at
the fetch address plus 2 and the stack stays empty. -/
def Obligations.ReturnOnEmptyStackIsFatal : Prop :=
  ∀ s : State, s.stack = [] →
    (∀ q, ∃ r, exec (.ret q) s = .fault (.fatal r) ∧ r.kind = .stackUnderflow ∧ r.state = s) ∧
    (∀ (w : Word) (q : Nibble), s.Executes → s.FetchFits → s.cfg.memSize ≤ 65536 → s.HoldsAtPc w →
      decode w = .ret q → ∃ r, step s = .fault (.fatal r) ∧ r.kind = .stackUnderflow ∧
        r.state.pc.toNat = s.pc.toNat + 2 ∧ r.state.stack = [])

/-- R81: a word of class 0x1 is JP with its low twelve bits as target; JP sets pc to the zero-extended target,
unchecked, with no exception; the stack and everything else are untouched. Where the target is too high to fetch
from, it is the next fetch, in the next cycle that executes, that is fatal: where the fetch is checked is the spec's
own decision D4 (log 7). -/
def Obligations.JumpSetsPc : Prop :=
  (∀ w : Word, w &&& 0xF000 = 0x1000 → decode w = .jp (BitVec.ofNat 12 (w.toNat % 4096))) ∧
  (∀ (s : State) (nnn : Addr), ∃ t, exec (.jp nnn) s = .next t ∧ t.pc.toNat = nnn.toNat ∧
    t.stack = s.stack ∧ (∀ r, t.reg r = s.reg r) ∧ t.i = s.i ∧ t.fb = s.fb ∧ s.RestKept t) ∧
  (∀ (s t : State) (w : Word) (nnn : Addr), s.Executes → s.HoldsAtPc w → decode w = .jp nnn →
    nnn.toNat + 2 > s.cfg.memSize - 1 → step s = .next t → t.Executes →
    ∃ r, step t = .fault (.fatal r) ∧ r.kind = .pcOutOfBounds ∧ r.fetchAddr.toNat = nnn.toNat)

/-- R82: a word of class 0x2 is CALL with its low twelve bits as target; below capacity CALL pushes pc and sets it to
the target, and nothing else changes; at capacity it raises StackOverflow with the stack and pc unchanged. -/
def Obligations.CallPushesPcAndJumps : Prop :=
  (∀ w : Word, w &&& 0xF000 = 0x2000 → decode w = .call (BitVec.ofNat 12 (w.toNat % 4096))) ∧
  (∀ (s : State) (nnn : Addr), s.stack.length ≠ s.cfg.stackCap →
    ∃ t, exec (.call nnn) s = .next t ∧ t.stack = s.stack ++ [s.pc] ∧ t.pc.toNat = nnn.toNat ∧
      (∀ r, t.reg r = s.reg r) ∧ t.i = s.i ∧ t.fb = s.fb ∧ s.RestKept t) ∧
  (∀ (s : State) (nnn : Addr), s.stack.length = s.cfg.stackCap →
    ∃ r, exec (.call nnn) s = .fault (.fatal r) ∧ r.kind = .stackOverflow ∧ r.state = s)

/-- R132: through a whole cycle, CALL at capacity raises StackOverflow: nothing is pushed and pc is left at the
fetch address plus 2, not at the target. -/
def Obligations.CallAtCapacityIsFatal : Prop :=
  ∀ (s : State) (w : Word) (nnn : Addr), s.stack.length = s.cfg.stackCap → s.Executes → s.FetchFits →
    s.cfg.memSize ≤ 65536 → s.HoldsAtPc w → decode w = .call nnn →
    ∃ r, step s = .fault (.fatal r) ∧ r.kind = .stackOverflow ∧ r.state.stack = s.stack ∧
      r.state.pc.toNat = s.pc.toNat + 2

/-- R83: a RET that finds the stack as a CALL left it resumes after that CALL, with the stack as before it. -/
def Obligations.ReturnResumesAfterItsCall : Prop :=
  ∀ (s t m : State) (nnn : Addr) (q : Nibble), exec (.call nnn) s = .next t → m.stack = t.stack →
    ∃ u, exec (.ret q) m = .next u ∧ u.pc = s.pc ∧ u.stack = s.stack

/-- R83: calls nested within capacity all succeed; then the returns succeed one by one, each resuming at the
address its matching call pushed, in LIFO order; after all of them pc and the stack are as before the calls. -/
def Obligations.NestedCallsReturnInLifoOrder : Prop :=
  ∀ (s : State) (ts : List Addr) (q : Nibble), s.stack.length + ts.length ≤ s.cfg.stackCap →
    ∃ t, execAll (ts.map .call) s = .next t ∧ t.stack.length = s.stack.length + ts.length ∧
      (∀ k, k < ts.length → ∃ u, execAll (List.replicate (k + 1) (.ret q)) t = .next u ∧
        some u.pc = t.stack[t.stack.length - (k + 1)]? ∧
        u.stack = t.stack.take (t.stack.length - (k + 1))) ∧
      (∃ v, execAll (List.replicate ts.length (.ret q)) t = .next v ∧ v.stack = s.stack ∧
        (ts ≠ [] → v.pc = s.pc))

/-! ### Registers (spec/42_register.md) -/

/-- R90: a word of class 0x6 is LD Vx with its fields; LD Vx writes its immediate to register x, VF included; nothing
else changes. -/
def Obligations.LoadImmediateWritesItsRegister : Prop :=
  (∀ w : Word, w &&& 0xF000 = 0x6000 →
    ∃ x : RegIdx, x.val = w.toNat / 256 % 16 ∧ decode w = .ldV x (BitVec.ofNat 8 (w.toNat % 256))) ∧
  (∀ (s : State) (x : RegIdx) (nn : Byte), ∃ t, exec (.ldV x nn) s = .next t ∧
    t.reg x = nn ∧ (∀ r, r ≠ x → t.reg r = s.reg r) ∧
    t.pc = s.pc ∧ t.i = s.i ∧ t.stack = s.stack ∧ t.fb = s.fb ∧ s.RestKept t)

/-- R91: a word of class 0x7 is ADD Vx with its fields; ADD Vx writes the sum modulo 256 to register x; no other
register changes, so VF is no carry. That VF as a destination takes the sum is the spec's own inference and not its
source's (log 25). -/
def Obligations.AddImmediateWrapsWithoutCarry : Prop :=
  (∀ w : Word, w &&& 0xF000 = 0x7000 →
    ∃ x : RegIdx, x.val = w.toNat / 256 % 16 ∧ decode w = .addV x (BitVec.ofNat 8 (w.toNat % 256))) ∧
  (∀ (s : State) (x : RegIdx) (nn : Byte), ∃ t, exec (.addV x nn) s = .next t ∧
    (t.reg x).toNat = ((s.reg x).toNat + nn.toNat) % 256 ∧ (∀ r, r ≠ x → t.reg r = s.reg r) ∧
    t.pc = s.pc ∧ t.i = s.i ∧ t.stack = s.stack ∧ t.fb = s.fb ∧ s.RestKept t)

/-- R92: a word of class 0xA is LD I with its low twelve bits as address; LD I writes the zero-extended address to I,
unchecked; nothing else changes. -/
def Obligations.LoadIndexWritesTheIndex : Prop :=
  (∀ w : Word, w &&& 0xF000 = 0xA000 → decode w = .ldI (BitVec.ofNat 12 (w.toNat % 4096))) ∧
  (∀ (s : State) (nnn : Addr), ∃ t, exec (.ldI nnn) s = .next t ∧ t.i.toNat = nnn.toNat ∧
    (∀ r, t.reg r = s.reg r) ∧ t.pc = s.pc ∧ t.stack = s.stack ∧ t.fb = s.fb ∧ s.RestKept t)

/-! ### Framebuffer (spec/43_display.md) -/

/-- R100: CLS makes every pixel false and keeps the framebuffer's size; no register, VF included, changes. -/
def Obligations.ClearBlanksEveryPixel : Prop :=
  ∀ (s : State) (q : Nibble), ∃ t, exec (.cls q) s = .next t ∧
    (∀ col row, t.pixel col row = false) ∧ t.fb.sized s.cfg.fbW s.cfg.fbH = true ∧
    (∀ r, t.reg r = s.reg r) ∧ t.pc = s.pc ∧ t.i = s.i ∧ t.stack = s.stack ∧ s.RestKept t

/-- R101 to R104: where its drawn rows lie in memory, DRW XORs exactly the pixels its sprite covers on screen, sets
VF to 1 if one of them was lit and to 0 if none was, and changes nothing else. The origin is taken from the
registers before VF is written (R102). That a clipped row is not read is the spec's own decision D7 (log 9). -/
def Obligations.DrawXorsTheCoveredPixels : Prop :=
  ∀ (s : State) (x y : RegIdx) (n : Nibble), 1 ≤ s.cfg.fbW → 1 ≤ s.cfg.fbH →
    s.fb.sized s.cfg.fbW s.cfg.fbH = true →
    (spriteRows s y n = 0 ∨ s.i.toNat + spriteRows s y n - 1 ≤ s.cfg.memSize - 1) →
    ∃ t, exec (.drw x y n) s = .next t ∧
      t.fb.sized s.cfg.fbW s.cfg.fbH = true ∧
      (∀ col row, col < s.cfg.fbW → row < s.cfg.fbH →
        t.pixel col row = (s.pixel col row ^^ spriteCovers s x y n col row)) ∧
      ((∃ col row, col < s.cfg.fbW ∧ row < s.cfg.fbH ∧
          spriteCovers s x y n col row = true ∧ s.pixel col row = true) → t.reg 0xF = 1) ∧
      ((∀ col row, col < s.cfg.fbW → row < s.cfg.fbH →
          spriteCovers s x y n col row = true → s.pixel col row = false) → t.reg 0xF = 0) ∧
      (∀ r, r ≠ 0xF → t.reg r = s.reg r) ∧
      t.pc = s.pc ∧ t.i = s.i ∧ t.stack = s.stack ∧ s.RestKept t

/-- R105: DRW is fatal iff a row it would draw lies beyond memory, and then nothing has changed: not VF, not a
pixel. Rows clipped at the bottom do not count. Both are the spec's own decisions, D6 and D7 (log 8, log 9). -/
def Obligations.DrawBeyondMemoryIsFatal : Prop :=
  ∀ (s : State) (x y : RegIdx) (n : Nibble),
    (0 < spriteRows s y n ∧ s.i.toNat + spriteRows s y n - 1 > s.cfg.memSize - 1 ↔
      ∃ r, exec (.drw x y n) s = .fault (.fatal r)) ∧
    (∀ r, exec (.drw x y n) s = .fault (.fatal r) → r.kind = .memoryOutOfBounds ∧ r.state = s)

/-- R106: drawing the same sprite twice, neither origin register being VF, restores every pixel; the second draw
sets VF to 1 exactly when a drawn 1-bit fell on a pixel that was off before the first. -/
def Obligations.DrawingTwiceRestoresThePixels : Prop :=
  ∀ (s t : State) (x y : RegIdx) (n : Nibble), 1 ≤ s.cfg.fbW → 1 ≤ s.cfg.fbH →
    s.fb.sized s.cfg.fbW s.cfg.fbH = true → x ≠ 0xF → y ≠ 0xF → exec (.drw x y n) s = .next t →
    ∃ u, exec (.drw x y n) t = .next u ∧
      (∀ col row, col < s.cfg.fbW → row < s.cfg.fbH → u.pixel col row = s.pixel col row) ∧
      ((∃ col row, col < s.cfg.fbW ∧ row < s.cfg.fbH ∧
          spriteCovers s x y n col row = true ∧ s.pixel col row = false) → u.reg 0xF = 1) ∧
      ((∀ col row, col < s.cfg.fbW → row < s.cfg.fbH →
          spriteCovers s x y n col row = true → s.pixel col row = true) → u.reg 0xF = 0)

/-! ### Unsupported words (spec/44_unsupported.md) -/

/-- R120, R121: under `UNSUPPORTED_POLICY = NoOp` every unsupported word is a no-op: the next state of each of the
ten rows is the state itself, whatever the ignored bits. That class 0x0 has unsupported words is the spec's own
decision D8 (log 10), the policy's parameter D9 (log 11). -/
def Obligations.UnsupportedWordsAreNoOps : Prop :=
  ∀ (s : State) (q : Nibble) (k : Byte) (b : Addr), s.cfg.unsupportedPolicy = .noOp →
    exec (.unsupported0 q k) s = .next s ∧ exec (.unsupported3 b) s = .next s ∧
    exec (.unsupported4 b) s = .next s ∧ exec (.unsupported5 b) s = .next s ∧
    exec (.unsupported8 b) s = .next s ∧ exec (.unsupported9 b) s = .next s ∧
    exec (.unsupportedB b) s = .next s ∧ exec (.unsupportedC b) s = .next s ∧
    exec (.unsupportedE b) s = .next s ∧ exec (.unsupportedF b) s = .next s

/-- R122, R134: under `UNSUPPORTED_POLICY = Fault` every instruction of an unsupported row raises UnsupportedOpcode
with nothing changed; under `NoOp` no instruction raises it. The policy is the spec's own decision D9 (log 11). -/
def Obligations.UnsupportedWordsFaultUnderThePolicy : Prop :=
  (∀ (s : State) (i : Instr), s.cfg.unsupportedPolicy = .fault → i.unsupportedRow = true →
    ∃ r, exec i s = .fault (.fatal r) ∧ r.kind = .unsupportedOpcode ∧ r.state = s) ∧
  (∀ (s : State) (i : Instr) (r : FatalReport), s.cfg.unsupportedPolicy = .noOp →
    exec i s = .fault (.fatal r) → r.kind ≠ .unsupportedOpcode)

/-! ### The whole machine -/

/-- R25: which instruction may write which component. Whatever differs after an instruction is one it is listed
for; memory, timers, latch, run state and diagnostic copy no instruction writes. -/
def Obligations.InstructionsWriteOnlyWhatIsListed : Prop :=
  ∀ (i : Instr) (s t : State), exec i s = .next t →
    s.RestKept t ∧
    (∀ r, t.reg r ≠ s.reg r → (∃ nn, i = .ldV r nn ∨ i = .addV r nn) ∨
      (r = 0xF ∧ ∃ x y n, i = .drw x y n)) ∧
    (t.i ≠ s.i → ∃ a, i = .ldI a) ∧
    (t.pc ≠ s.pc → (∃ q, i = .ret q) ∨ ∃ a, i = .jp a ∨ i = .call a) ∧
    (t.stack ≠ s.stack → (∃ q, i = .ret q) ∨ ∃ a, i = .call a) ∧
    (t.fb ≠ s.fb → (∃ q, i = .cls q) ∨ ∃ x y n, i = .drw x y n)

/-- R20, R136: the keys reach nothing but the latch. Two machines that differ only in the latch and in the keys of
the next input take steps that differ only in the latch, which holds the new keys. -/
def Obligations.KeysReachNothingButTheLatch : Prop :=
  ∀ (s : State) (inp : HostInput) (rest : List HostInput) (k k' : KeyLatch), s.inputs = inp :: rest →
    let s' : State := { s with keys := k, inputs := { inp with keys := k' } :: rest }
    (∀ t, step s = .next t → step s' = .next { t with keys := k' }) ∧
    (∀ r, step s = .fault (.fatal r) →
      step s' = .fault (.fatal { r with state := { r.state with keys := k' } })) ∧
    (step s = .fault .halted → step s' = .fault .halted)

/-- R23: `current_instruction` is read by nothing: a cycle that executes gives the same outcome whatever it held
before, and a paused cycle only carries it along. -/
def Obligations.DiagnosticCopyIsReadByNothing : Prop :=
  ∀ (s : State) (d : Option DecodedInstruction),
    (s.Executes → s.FetchFits → step { s with current := d } = step s) ∧
    (s.Pauses → ∀ t, step s = .next t → step { s with current := d } = .next { t with current := d })

/-- R73, R74: a run given its inputs one by one and the same inputs waiting in the state are one run: as long as it
has not ended, the steps reach the state the run reaches, with every input taken. -/
def Obligations.RunOverInputsIsTheStepsOverTheQueue : Prop :=
  ∀ (inps : List HostInput) (s t : State), s.run ≠ .quit → runCycles s inps = .unfinished t →
    Host.Core.run Sys2Proof.core inps.length { s with inputs := inps } = .next { t with inputs := [] }

/-- R71, R73: a run ends in success only where the host has quit, and its last state then has run state Quit; a run
with no quit among its inputs has not ended in success. -/
def Obligations.RunSucceedsOnlyOnAHostQuit : Prop :=
  ∀ (inps : List HostInput) (s t : State), s.run ≠ .quit → runCycles s inps = .halted t →
    t.run = .quit ∧ (∃ inp ∈ inps, inp.quit = true) ∧ (runCycles s inps).exit = some .success
end

