-- ==== Sys2Proof/Laws/State.lean ====
section
/-! SUPPORT. One lemma per field per update of the state, each true by definition, so that no proof unfolds an update. -/

namespace Sys2Proof.Machine.State

variable (s : State)

/-! ### setReg -/

@[simp] theorem setReg_mem (r : RegIdx) (b : Byte) : (s.setReg r b).mem = s.mem := rfl
@[simp] theorem setReg_v (r : RegIdx) (b : Byte) : (s.setReg r b).v = s.v.set r b := rfl
@[simp] theorem setReg_i (r : RegIdx) (b : Byte) : (s.setReg r b).i = s.i := rfl
@[simp] theorem setReg_pc (r : RegIdx) (b : Byte) : (s.setReg r b).pc = s.pc := rfl
@[simp] theorem setReg_stack (r : RegIdx) (b : Byte) : (s.setReg r b).stack = s.stack := rfl
@[simp] theorem setReg_fb (r : RegIdx) (b : Byte) : (s.setReg r b).fb = s.fb := rfl
@[simp] theorem setReg_dt (r : RegIdx) (b : Byte) : (s.setReg r b).dt = s.dt := rfl
@[simp] theorem setReg_st (r : RegIdx) (b : Byte) : (s.setReg r b).st = s.st := rfl
@[simp] theorem setReg_keys (r : RegIdx) (b : Byte) : (s.setReg r b).keys = s.keys := rfl
@[simp] theorem setReg_run (r : RegIdx) (b : Byte) : (s.setReg r b).run = s.run := rfl
@[simp] theorem setReg_current (r : RegIdx) (b : Byte) : (s.setReg r b).current = s.current := rfl
@[simp] theorem setReg_cfg (r : RegIdx) (b : Byte) : (s.setReg r b).cfg = s.cfg := rfl
@[simp] theorem setReg_inputs (r : RegIdx) (b : Byte) : (s.setReg r b).inputs = s.inputs := rfl
@[simp] theorem setReg_output (r : RegIdx) (b : Byte) : (s.setReg r b).output = s.output := rfl

/-! ### setIndex -/

@[simp] theorem setIndex_mem (w : Word) : (s.setIndex w).mem = s.mem := rfl
@[simp] theorem setIndex_v (w : Word) : (s.setIndex w).v = s.v := rfl
@[simp] theorem setIndex_i (w : Word) : (s.setIndex w).i = w := rfl
@[simp] theorem setIndex_pc (w : Word) : (s.setIndex w).pc = s.pc := rfl
@[simp] theorem setIndex_stack (w : Word) : (s.setIndex w).stack = s.stack := rfl
@[simp] theorem setIndex_fb (w : Word) : (s.setIndex w).fb = s.fb := rfl
@[simp] theorem setIndex_dt (w : Word) : (s.setIndex w).dt = s.dt := rfl
@[simp] theorem setIndex_st (w : Word) : (s.setIndex w).st = s.st := rfl
@[simp] theorem setIndex_keys (w : Word) : (s.setIndex w).keys = s.keys := rfl
@[simp] theorem setIndex_run (w : Word) : (s.setIndex w).run = s.run := rfl
@[simp] theorem setIndex_current (w : Word) : (s.setIndex w).current = s.current := rfl
@[simp] theorem setIndex_cfg (w : Word) : (s.setIndex w).cfg = s.cfg := rfl
@[simp] theorem setIndex_inputs (w : Word) : (s.setIndex w).inputs = s.inputs := rfl
@[simp] theorem setIndex_output (w : Word) : (s.setIndex w).output = s.output := rfl

/-! ### setPc -/

@[simp] theorem setPc_mem (w : Word) : (s.setPc w).mem = s.mem := rfl
@[simp] theorem setPc_v (w : Word) : (s.setPc w).v = s.v := rfl
@[simp] theorem setPc_i (w : Word) : (s.setPc w).i = s.i := rfl
@[simp] theorem setPc_pc (w : Word) : (s.setPc w).pc = w := rfl
@[simp] theorem setPc_stack (w : Word) : (s.setPc w).stack = s.stack := rfl
@[simp] theorem setPc_fb (w : Word) : (s.setPc w).fb = s.fb := rfl
@[simp] theorem setPc_dt (w : Word) : (s.setPc w).dt = s.dt := rfl
@[simp] theorem setPc_st (w : Word) : (s.setPc w).st = s.st := rfl
@[simp] theorem setPc_keys (w : Word) : (s.setPc w).keys = s.keys := rfl
@[simp] theorem setPc_run (w : Word) : (s.setPc w).run = s.run := rfl
@[simp] theorem setPc_current (w : Word) : (s.setPc w).current = s.current := rfl
@[simp] theorem setPc_cfg (w : Word) : (s.setPc w).cfg = s.cfg := rfl
@[simp] theorem setPc_inputs (w : Word) : (s.setPc w).inputs = s.inputs := rfl
@[simp] theorem setPc_output (w : Word) : (s.setPc w).output = s.output := rfl

/-! ### setStack -/

@[simp] theorem setStack_mem (xs : List Word) : (s.setStack xs).mem = s.mem := rfl
@[simp] theorem setStack_v (xs : List Word) : (s.setStack xs).v = s.v := rfl
@[simp] theorem setStack_i (xs : List Word) : (s.setStack xs).i = s.i := rfl
@[simp] theorem setStack_pc (xs : List Word) : (s.setStack xs).pc = s.pc := rfl
@[simp] theorem setStack_stack (xs : List Word) : (s.setStack xs).stack = xs := rfl
@[simp] theorem setStack_fb (xs : List Word) : (s.setStack xs).fb = s.fb := rfl
@[simp] theorem setStack_dt (xs : List Word) : (s.setStack xs).dt = s.dt := rfl
@[simp] theorem setStack_st (xs : List Word) : (s.setStack xs).st = s.st := rfl
@[simp] theorem setStack_keys (xs : List Word) : (s.setStack xs).keys = s.keys := rfl
@[simp] theorem setStack_run (xs : List Word) : (s.setStack xs).run = s.run := rfl
@[simp] theorem setStack_current (xs : List Word) : (s.setStack xs).current = s.current := rfl
@[simp] theorem setStack_cfg (xs : List Word) : (s.setStack xs).cfg = s.cfg := rfl
@[simp] theorem setStack_inputs (xs : List Word) : (s.setStack xs).inputs = s.inputs := rfl
@[simp] theorem setStack_output (xs : List Word) : (s.setStack xs).output = s.output := rfl

/-! ### setFb -/

@[simp] theorem setFb_mem (fb : Framebuffer) : (s.setFb fb).mem = s.mem := rfl
@[simp] theorem setFb_v (fb : Framebuffer) : (s.setFb fb).v = s.v := rfl
@[simp] theorem setFb_i (fb : Framebuffer) : (s.setFb fb).i = s.i := rfl
@[simp] theorem setFb_pc (fb : Framebuffer) : (s.setFb fb).pc = s.pc := rfl
@[simp] theorem setFb_stack (fb : Framebuffer) : (s.setFb fb).stack = s.stack := rfl
@[simp] theorem setFb_fb (fb : Framebuffer) : (s.setFb fb).fb = fb := rfl
@[simp] theorem setFb_dt (fb : Framebuffer) : (s.setFb fb).dt = s.dt := rfl
@[simp] theorem setFb_st (fb : Framebuffer) : (s.setFb fb).st = s.st := rfl
@[simp] theorem setFb_keys (fb : Framebuffer) : (s.setFb fb).keys = s.keys := rfl
@[simp] theorem setFb_run (fb : Framebuffer) : (s.setFb fb).run = s.run := rfl
@[simp] theorem setFb_current (fb : Framebuffer) : (s.setFb fb).current = s.current := rfl
@[simp] theorem setFb_cfg (fb : Framebuffer) : (s.setFb fb).cfg = s.cfg := rfl
@[simp] theorem setFb_inputs (fb : Framebuffer) : (s.setFb fb).inputs = s.inputs := rfl
@[simp] theorem setFb_output (fb : Framebuffer) : (s.setFb fb).output = s.output := rfl

/-! ### setCollision -/

@[simp] theorem setCollision_mem (c : Bool) : (s.setCollision c).mem = s.mem := rfl
@[simp] theorem setCollision_v (c : Bool) : (s.setCollision c).v = s.v.set flagReg (flagValue c) := rfl
@[simp] theorem setCollision_i (c : Bool) : (s.setCollision c).i = s.i := rfl
@[simp] theorem setCollision_pc (c : Bool) : (s.setCollision c).pc = s.pc := rfl
@[simp] theorem setCollision_stack (c : Bool) : (s.setCollision c).stack = s.stack := rfl
@[simp] theorem setCollision_fb (c : Bool) : (s.setCollision c).fb = s.fb := rfl
@[simp] theorem setCollision_dt (c : Bool) : (s.setCollision c).dt = s.dt := rfl
@[simp] theorem setCollision_st (c : Bool) : (s.setCollision c).st = s.st := rfl
@[simp] theorem setCollision_keys (c : Bool) : (s.setCollision c).keys = s.keys := rfl
@[simp] theorem setCollision_run (c : Bool) : (s.setCollision c).run = s.run := rfl
@[simp] theorem setCollision_current (c : Bool) : (s.setCollision c).current = s.current := rfl
@[simp] theorem setCollision_cfg (c : Bool) : (s.setCollision c).cfg = s.cfg := rfl
@[simp] theorem setCollision_inputs (c : Bool) : (s.setCollision c).inputs = s.inputs := rfl
@[simp] theorem setCollision_output (c : Bool) : (s.setCollision c).output = s.output := rfl

/-! ### applyInput -/

@[simp] theorem applyInput_mem (inp : HostInput) : (s.applyInput inp).mem = s.mem := rfl
@[simp] theorem applyInput_v (inp : HostInput) : (s.applyInput inp).v = s.v := rfl
@[simp] theorem applyInput_i (inp : HostInput) : (s.applyInput inp).i = s.i := rfl
@[simp] theorem applyInput_pc (inp : HostInput) : (s.applyInput inp).pc = s.pc := rfl
@[simp] theorem applyInput_stack (inp : HostInput) : (s.applyInput inp).stack = s.stack := rfl
@[simp] theorem applyInput_fb (inp : HostInput) : (s.applyInput inp).fb = s.fb := rfl
@[simp] theorem applyInput_dt (inp : HostInput) : (s.applyInput inp).dt = s.dt := rfl
@[simp] theorem applyInput_st (inp : HostInput) : (s.applyInput inp).st = s.st := rfl
@[simp] theorem applyInput_keys (inp : HostInput) : (s.applyInput inp).keys = inp.keys := rfl
@[simp] theorem applyInput_run (inp : HostInput) : (s.applyInput inp).run = s.run.after inp := rfl
@[simp] theorem applyInput_current (inp : HostInput) : (s.applyInput inp).current = s.current := rfl
@[simp] theorem applyInput_cfg (inp : HostInput) : (s.applyInput inp).cfg = s.cfg := rfl
@[simp] theorem applyInput_inputs (inp : HostInput) : (s.applyInput inp).inputs = s.inputs := rfl
@[simp] theorem applyInput_output (inp : HostInput) : (s.applyInput inp).output = s.output := rfl

/-! ### takeInput -/

@[simp] theorem takeInput_mem : s.takeInput.mem = s.mem := rfl
@[simp] theorem takeInput_v : s.takeInput.v = s.v := rfl
@[simp] theorem takeInput_i : s.takeInput.i = s.i := rfl
@[simp] theorem takeInput_pc : s.takeInput.pc = s.pc := rfl
@[simp] theorem takeInput_stack : s.takeInput.stack = s.stack := rfl
@[simp] theorem takeInput_fb : s.takeInput.fb = s.fb := rfl
@[simp] theorem takeInput_dt : s.takeInput.dt = s.dt := rfl
@[simp] theorem takeInput_st : s.takeInput.st = s.st := rfl
@[simp] theorem takeInput_keys : s.takeInput.keys = s.keys := rfl
@[simp] theorem takeInput_run : s.takeInput.run = s.run := rfl
@[simp] theorem takeInput_current : s.takeInput.current = s.current := rfl
@[simp] theorem takeInput_cfg : s.takeInput.cfg = s.cfg := rfl
@[simp] theorem takeInput_inputs : s.takeInput.inputs = s.inputs.tail := rfl
@[simp] theorem takeInput_output : s.takeInput.output = s.output := rfl

/-! ### fetched -/

@[simp] theorem fetched_mem : s.fetched.mem = s.mem := rfl
@[simp] theorem fetched_v : s.fetched.v = s.v := rfl
@[simp] theorem fetched_i : s.fetched.i = s.i := rfl
@[simp] theorem fetched_pc : s.fetched.pc = s.pc + 2 := rfl
@[simp] theorem fetched_stack : s.fetched.stack = s.stack := rfl
@[simp] theorem fetched_fb : s.fetched.fb = s.fb := rfl
@[simp] theorem fetched_dt : s.fetched.dt = s.dt := rfl
@[simp] theorem fetched_st : s.fetched.st = s.st := rfl
@[simp] theorem fetched_keys : s.fetched.keys = s.keys := rfl
@[simp] theorem fetched_run : s.fetched.run = s.run := rfl
@[simp] theorem fetched_current : s.fetched.current = some (fields s.fetchedWord) := rfl
@[simp] theorem fetched_cfg : s.fetched.cfg = s.cfg := rfl
@[simp] theorem fetched_inputs : s.fetched.inputs = s.inputs := rfl
@[simp] theorem fetched_output : s.fetched.output = s.output := rfl

/-! ### tick -/

@[simp] theorem tick_mem : s.tick.mem = s.mem := rfl
@[simp] theorem tick_v : s.tick.v = s.v := rfl
@[simp] theorem tick_i : s.tick.i = s.i := rfl
@[simp] theorem tick_pc : s.tick.pc = s.pc := rfl
@[simp] theorem tick_stack : s.tick.stack = s.stack := rfl
@[simp] theorem tick_fb : s.tick.fb = s.fb := rfl
@[simp] theorem tick_dt : s.tick.dt = tickTimer s.dt := rfl
@[simp] theorem tick_st : s.tick.st = tickTimer s.st := rfl
@[simp] theorem tick_keys : s.tick.keys = s.keys := rfl
@[simp] theorem tick_run : s.tick.run = s.run := rfl
@[simp] theorem tick_current : s.tick.current = s.current := rfl
@[simp] theorem tick_cfg : s.tick.cfg = s.cfg := rfl
@[simp] theorem tick_inputs : s.tick.inputs = s.inputs := rfl
@[simp] theorem tick_output : s.tick.output = s.output := rfl

/-! ### present -/

@[simp] theorem present_mem : s.present.mem = s.mem := rfl
@[simp] theorem present_v : s.present.v = s.v := rfl
@[simp] theorem present_i : s.present.i = s.i := rfl
@[simp] theorem present_pc : s.present.pc = s.pc := rfl
@[simp] theorem present_stack : s.present.stack = s.stack := rfl
@[simp] theorem present_fb : s.present.fb = s.fb := rfl
@[simp] theorem present_dt : s.present.dt = s.dt := rfl
@[simp] theorem present_st : s.present.st = s.st := rfl
@[simp] theorem present_keys : s.present.keys = s.keys := rfl
@[simp] theorem present_run : s.present.run = s.run := rfl
@[simp] theorem present_current : s.present.current = s.current := rfl
@[simp] theorem present_cfg : s.present.cfg = s.cfg := rfl
@[simp] theorem present_inputs : s.present.inputs = s.inputs := rfl
@[simp] theorem present_output : s.present.output = .frame s.fb :: s.output := rfl

/-! ### presentPaused -/

@[simp] theorem presentPaused_mem : s.presentPaused.mem = s.mem := rfl
@[simp] theorem presentPaused_v : s.presentPaused.v = s.v := rfl
@[simp] theorem presentPaused_i : s.presentPaused.i = s.i := rfl
@[simp] theorem presentPaused_pc : s.presentPaused.pc = s.pc := rfl
@[simp] theorem presentPaused_stack : s.presentPaused.stack = s.stack := rfl
@[simp] theorem presentPaused_fb : s.presentPaused.fb = s.fb := rfl
@[simp] theorem presentPaused_dt : s.presentPaused.dt = s.dt := rfl
@[simp] theorem presentPaused_st : s.presentPaused.st = s.st := rfl
@[simp] theorem presentPaused_keys : s.presentPaused.keys = s.keys := rfl
@[simp] theorem presentPaused_run : s.presentPaused.run = s.run := rfl
@[simp] theorem presentPaused_current : s.presentPaused.current = s.current := rfl
@[simp] theorem presentPaused_cfg : s.presentPaused.cfg = s.cfg := rfl
@[simp] theorem presentPaused_inputs : s.presentPaused.inputs = s.inputs := rfl
@[simp] theorem presentPaused_output : s.presentPaused.output = .repeatAllowed s.fb :: s.output := rfl

/-! ### Reading through updates that leave memory or the framebuffer alone -/

@[simp] theorem memRead_setReg (r : RegIdx) (b : Byte) (a : Nat) : (s.setReg r b).memRead a = s.memRead a := rfl
@[simp] theorem memRead_setIndex (w : Word) (a : Nat) : (s.setIndex w).memRead a = s.memRead a := rfl
@[simp] theorem memRead_setPc (w : Word) (a : Nat) : (s.setPc w).memRead a = s.memRead a := rfl
@[simp] theorem memRead_setStack (xs : List Word) (a : Nat) : (s.setStack xs).memRead a = s.memRead a := rfl
@[simp] theorem memRead_setFb (fb : Framebuffer) (a : Nat) : (s.setFb fb).memRead a = s.memRead a := rfl
@[simp] theorem memRead_setCollision (c : Bool) (a : Nat) : (s.setCollision c).memRead a = s.memRead a := rfl
@[simp] theorem memRead_applyInput (inp : HostInput) (a : Nat) : (s.applyInput inp).memRead a = s.memRead a := rfl
@[simp] theorem memRead_takeInput (a : Nat) : s.takeInput.memRead a = s.memRead a := rfl
@[simp] theorem memRead_fetched (a : Nat) : s.fetched.memRead a = s.memRead a := rfl
@[simp] theorem memRead_tick (a : Nat) : s.tick.memRead a = s.memRead a := rfl
@[simp] theorem memRead_present (a : Nat) : s.present.memRead a = s.memRead a := rfl
@[simp] theorem memRead_presentPaused (a : Nat) : s.presentPaused.memRead a = s.memRead a := rfl
@[simp] theorem pixel_setReg (r : RegIdx) (b : Byte) (col row : Nat) : (s.setReg r b).pixel col row = s.pixel col row := rfl
@[simp] theorem pixel_setIndex (w : Word) (col row : Nat) : (s.setIndex w).pixel col row = s.pixel col row := rfl
@[simp] theorem pixel_setPc (w : Word) (col row : Nat) : (s.setPc w).pixel col row = s.pixel col row := rfl
@[simp] theorem pixel_setStack (xs : List Word) (col row : Nat) : (s.setStack xs).pixel col row = s.pixel col row := rfl
@[simp] theorem pixel_setCollision (c : Bool) (col row : Nat) : (s.setCollision c).pixel col row = s.pixel col row := rfl
@[simp] theorem pixel_applyInput (inp : HostInput) (col row : Nat) : (s.applyInput inp).pixel col row = s.pixel col row := rfl
@[simp] theorem pixel_takeInput (col row : Nat) : s.takeInput.pixel col row = s.pixel col row := rfl
@[simp] theorem pixel_fetched (col row : Nat) : s.fetched.pixel col row = s.pixel col row := rfl
@[simp] theorem pixel_tick (col row : Nat) : s.tick.pixel col row = s.pixel col row := rfl
@[simp] theorem pixel_present (col row : Nat) : s.present.pixel col row = s.pixel col row := rfl
@[simp] theorem pixel_presentPaused (col row : Nat) : s.presentPaused.pixel col row = s.pixel col row := rfl
@[simp] theorem reg_setIndex (w : Word) (r : RegIdx) : (s.setIndex w).reg r = s.reg r := rfl
@[simp] theorem reg_setPc (w : Word) (r : RegIdx) : (s.setPc w).reg r = s.reg r := rfl
@[simp] theorem reg_setStack (xs : List Word) (r : RegIdx) : (s.setStack xs).reg r = s.reg r := rfl
@[simp] theorem reg_setFb (fb : Framebuffer) (r : RegIdx) : (s.setFb fb).reg r = s.reg r := rfl
@[simp] theorem reg_applyInput (inp : HostInput) (r : RegIdx) : (s.applyInput inp).reg r = s.reg r := rfl
@[simp] theorem reg_takeInput (r : RegIdx) : s.takeInput.reg r = s.reg r := rfl
@[simp] theorem reg_fetched (r : RegIdx) : s.fetched.reg r = s.reg r := rfl
@[simp] theorem reg_tick (r : RegIdx) : s.tick.reg r = s.reg r := rfl
@[simp] theorem reg_present (r : RegIdx) : s.present.reg r = s.reg r := rfl
@[simp] theorem reg_presentPaused (r : RegIdx) : s.presentPaused.reg r = s.reg r := rfl

end Sys2Proof.Machine.State
end

