-- ==== Sys2Proof/Laws/Framebuffer.lean ====
section
/-! SUPPORT. Reading a framebuffer after a pixel is written, and its size. -/

namespace Sys2Proof.Machine.Framebuffer

variable {fb : Framebuffer} {w h col row col' row' : Nat} {b : Bool}

theorem sized_iff : fb.sized w h = true ↔ fb.length = h ∧ ∀ r ∈ fb, r.length = w := by
  simp [Framebuffer.sized]

theorem sized_replicate : Framebuffer.sized (List.replicate h (List.replicate w b)) w h = true := by
  simp only [sized_iff, List.length_replicate, true_and]
  intro r hr
  rw [(List.mem_replicate.1 hr).2, List.length_replicate]

theorem sized_blank : (Framebuffer.blank w h).sized w h = true := sized_replicate

theorem get_replicate (hc : col < w) (hr : row < h) :
    Framebuffer.get (List.replicate h (List.replicate w b)) col row = b := by
  simp [Framebuffer.get, List.getD_eq_getElem?_getD, hr, hc]

@[simp] theorem get_blank : (Framebuffer.blank w h).get col row = false := by
  by_cases hr : row < h
  · by_cases hc : col < w <;> simp [Framebuffer.get, Framebuffer.blank, List.getD_eq_getElem?_getD, hr, hc]
  · simp [Framebuffer.get, Framebuffer.blank, List.getD_eq_getElem?_getD, hr]

theorem row_length (hs : fb.sized w h = true) (hr : row < h) : (fb.getD row []).length = w := by
  obtain ⟨hl, ha⟩ := sized_iff.1 hs
  have hr' : row < fb.length := hl ▸ hr
  rw [List.getD_eq_getElem?_getD, List.getElem?_eq_getElem hr', Option.getD_some]
  exact ha _ (List.getElem_mem hr')

theorem sized_put (hs : fb.sized w h = true) : (fb.put col row b).sized w h = true := by
  by_cases hr : row < h
  · obtain ⟨hl, ha⟩ := sized_iff.1 hs
    refine sized_iff.2 ⟨by simp [Framebuffer.put, hl], fun r hr' => ?_⟩
    rcases List.mem_or_eq_of_mem_set hr' with h1 | h1
    · exact ha r h1
    · rw [h1, List.length_set, row_length hs hr]
  · have : fb.put col row b = fb :=
      List.set_eq_of_length_le (by rw [(sized_iff.1 hs).1]; omega)
    rw [this]; exact hs

/-- A pixel inside the grid reads as what was written to it last. -/
theorem get_put (hs : fb.sized w h = true) (hc : col < w) (hr : row < h) :
    (fb.put col row b).get col' row' = if col' = col ∧ row' = row then b else fb.get col' row' := by
  have hl : row < fb.length := by rw [(sized_iff.1 hs).1]; exact hr
  have hw := row_length hs hr
  by_cases h1 : row' = row
  · subst h1
    by_cases h2 : col' = col
    · subst h2
      have hc' : col' < (fb[row']).length := by
        rw [List.getD_eq_getElem?_getD, List.getElem?_eq_getElem hl, Option.getD_some] at hw
        omega
      simp [Framebuffer.get, Framebuffer.put, List.getD_eq_getElem?_getD, hl, hc']
    · simp [Framebuffer.get, Framebuffer.put, List.getD_eq_getElem?_getD, hl, h2, Ne.symm h2]
  · simp [Framebuffer.get, Framebuffer.put, List.getD_eq_getElem?_getD, h1, Ne.symm h1]

end Sys2Proof.Machine.Framebuffer
end

