-- ==== Sys2Proof/Laws/Blit.lean ====
section
/-! SUPPORT. What the two loops of draw sprite do to the framebuffer and the collision flag. -/

namespace Sys2Proof.Machine.Blit

variable {s : State} {w h ox oy row col col' row' : Nat} {b : Byte} {bit : Bool} {p : Blit}

theorem pixel_sized (hs : p.fb.sized w h = true) : (p.pixel col row bit).fb.sized w h = true :=
  Framebuffer.sized_put hs

theorem pixel_get (hs : p.fb.sized w h = true) (hc : col < w) (hr : row < h) :
    (p.pixel col row bit).fb.get col' row' =
      (p.fb.get col' row' ^^ (decide (col' = col ∧ row' = row) && bit)) := by
  simp only [Blit.pixel, Framebuffer.get_put hs hc hr, xorPixel]
  split
  · next h => obtain ⟨rfl, rfl⟩ := h; simp
  · next h => simp [h]

/-- What a row of the sprite does, from column offset `c` on for `k` columns. -/
theorem columns_spec (hw : 0 < w) (hr : row < h) (c k : Nat) (hs : p.fb.sized w h = true) :
    let q := Blit.columns w b ox row (List.range' c k) p
    q.fb.sized w h = true ∧
    (∀ col' row', q.fb.get col' row' = (p.fb.get col' row' ^^
      (decide (row' = row ∧ ox + c ≤ col' ∧ col' < ox + c + k ∧ col' < w) && spriteBit b (col' - ox)))) ∧
    (q.collision = true ↔ p.collision = true ∨
      ∃ col, ox + c ≤ col ∧ col < ox + c + k ∧ col < w ∧ spriteBit b (col - ox) = true ∧
        p.fb.get col row = true) := by
  induction k generalizing c p with
  | zero =>
    refine ⟨hs, fun col' row' => ?_, ?_⟩
    · have : ¬ (row' = row ∧ ox + c ≤ col' ∧ col' < ox + c + 0 ∧ col' < w) := by omega
      rw [decide_eq_false this, Bool.false_and, Bool.xor_false]
      rfl
    · simp only [List.range'_zero, Blit.columns]
      refine ⟨.inl, fun h => h.elim id ?_⟩
      rintro ⟨col, h1, h2, -⟩
      omega
  | succ k ih =>
    rw [List.range'_succ]
    simp only [Blit.columns]
    split
    · next hout =>
      refine ⟨hs, fun col' row' => ?_, ⟨.inl, fun h => h.elim id ?_⟩⟩
      · have : ¬ (row' = row ∧ ox + c ≤ col' ∧ col' < ox + c + (k + 1) ∧ col' < w) := by omega
        simp [this]
      · rintro ⟨col, h1, -, h3, -⟩
        omega
    · next hin =>
      have hc : ox + c < w := by omega
      obtain ⟨h1, h2, h3⟩ := ih (c + 1) (pixel_sized (bit := spriteBit b c) (col := ox + c) (row := row) hs)
      refine ⟨h1, fun col' row' => ?_, ?_⟩
      · rw [h2, pixel_get hs hc hr]
        by_cases hcol : col' = ox + c
        · subst hcol
          have e1 : ¬ (row' = row ∧ ox + (c + 1) ≤ ox + c ∧ ox + c < ox + (c + 1) + k ∧ ox + c < w) := by omega
          have e2 : ox + c - ox = c := by omega
          simp [e2, hc]
        · have e : (row' = row ∧ ox + (c + 1) ≤ col' ∧ col' < ox + (c + 1) + k ∧ col' < w) ↔
              (row' = row ∧ ox + c ≤ col' ∧ col' < ox + c + (k + 1) ∧ col' < w) := by omega
          simp [e, hcol]
      · rw [h3]
        have hcoll : (p.pixel (ox + c) row (spriteBit b c)).collision = true ↔
            p.collision = true ∨ (spriteBit b c = true ∧ p.fb.get (ox + c) row = true) := by
          simp [Blit.pixel, collides]
        rw [hcoll]
        constructor
        · rintro ((h | ⟨hb, hg⟩) | ⟨col, a1, a2, a3, a4, a5⟩)
          · exact .inl h
          · exact .inr ⟨ox + c, by omega, by omega, hc, by simpa using hb, hg⟩
          · rw [pixel_get hs hc hr] at a5
            rw [decide_eq_false (by omega : ¬ (col = ox + c ∧ row = row)), Bool.false_and, Bool.xor_false] at a5
            exact .inr ⟨col, by omega, by omega, a3, a4, a5⟩
        · rintro (h | ⟨col, a1, a2, a3, a4, a5⟩)
          · exact .inl (.inl h)
          · by_cases hcol : col = ox + c
            · subst hcol
              exact .inl (.inr ⟨by simpa using a4, a5⟩)
            · refine .inr ⟨col, by omega, by omega, a3, a4, ?_⟩
              rw [pixel_get hs hc hr]
              simpa [hcol] using a5

/-- A 1-bit of the sprite lies at `col`, `row`, counting the sprite rows from `i` on for `k` rows only. -/
def coversFrom (s : State) (ox oy i k col row : Nat) : Bool :=
  decide (oy + i ≤ row ∧ row < oy + i + k) && decide (ox ≤ col ∧ col < ox + 8 ∧ col < s.cfg.fbW) &&
  spriteBit (s.memRead (spriteAddr s (row - oy))) (col - ox)

/-- What the sprite does, from row `i` on for `k` rows. -/
theorem rows_spec (hw : 0 < s.cfg.fbW) (i k : Nat) (hk : oy + i + k ≤ h) (hs : p.fb.sized s.cfg.fbW h = true) :
    let q := Blit.rows s ox oy (List.range' i k) p
    q.fb.sized s.cfg.fbW h = true ∧
    (∀ col row, q.fb.get col row = (p.fb.get col row ^^ coversFrom s ox oy i k col row)) ∧
    (q.collision = true ↔ p.collision = true ∨
      ∃ col row, coversFrom s ox oy i k col row = true ∧ p.fb.get col row = true) := by
  induction k generalizing i p with
  | zero =>
    have hno : ∀ col row, coversFrom s ox oy i 0 col row = false := by
      intro col row
      have : ¬ (oy + i ≤ row ∧ row < oy + i + 0) := by omega
      rw [coversFrom, decide_eq_false this, Bool.false_and, Bool.false_and]
    refine ⟨hs, fun col row => ?_, ?_⟩
    · simp [Blit.rows, hno]
    · simp [Blit.rows, hno]
  | succ k ih =>
    rw [List.range'_succ]
    simp only [Blit.rows, List.range_eq_range']
    obtain ⟨c1, c2, c3⟩ := columns_spec (b := s.memRead (spriteAddr s i)) (ox := ox) (row := oy + i) hw
      (by omega : oy + i < h) 0 8 hs
    obtain ⟨h1, h2, h3⟩ := ih (i + 1) (by omega) c1
    have hsub : oy + i - oy = i := by omega
    have hcov : ∀ col row, coversFrom s ox oy i (k + 1) col row =
        ((decide (row = oy + i ∧ ox + 0 ≤ col ∧ col < ox + 0 + 8 ∧ col < s.cfg.fbW) &&
          spriteBit (s.memRead (spriteAddr s i)) (col - ox)) || coversFrom s ox oy (i + 1) k col row) := by
      intro col row
      by_cases hrow : row = oy + i
      · subst hrow
        have : ¬ (oy + (i + 1) ≤ oy + i ∧ oy + i < oy + (i + 1) + k) := by omega
        rw [coversFrom, coversFrom, decide_eq_false this]
        simp [hsub]
      · have e : (oy + (i + 1) ≤ row ∧ row < oy + (i + 1) + k) ↔
            (oy + i ≤ row ∧ row < oy + i + (k + 1)) := by omega
        simp [coversFrom, hrow, e]
    have hnext : ∀ col, coversFrom s ox oy (i + 1) k col (oy + i) = false := by
      intro col
      have : ¬ (oy + (i + 1) ≤ oy + i ∧ oy + i < oy + (i + 1) + k) := by omega
      rw [coversFrom, decide_eq_false this, Bool.false_and, Bool.false_and]
    have hdis : ∀ col row, (decide (row = oy + i ∧ ox + 0 ≤ col ∧ col < ox + 0 + 8 ∧ col < s.cfg.fbW) &&
          spriteBit (s.memRead (spriteAddr s i)) (col - ox)) = true →
        coversFrom s ox oy (i + 1) k col row = false := by
      intro col row hh
      simp only [Bool.and_eq_true, decide_eq_true_eq] at hh
      rw [hh.1.1, hnext]
    refine ⟨h1, fun col row => ?_, ?_⟩
    · rw [h2, c2, hcov]
      have := hdis col row
      revert this
      generalize (decide (row = oy + i ∧ ox + 0 ≤ col ∧ col < ox + 0 + 8 ∧ col < s.cfg.fbW) &&
          spriteBit (s.memRead (spriteAddr s i)) (col - ox)) = x
      generalize coversFrom s ox oy (i + 1) k col row = y
      cases x <;> cases y <;> simp
    · rw [h3, c3]
      constructor
      · rintro ((h | ⟨col, a1, a2, a3, a4, a5⟩) | ⟨col, row, a1, a2⟩)
        · exact .inl h
        · exact .inr ⟨col, oy + i, by rw [hcov]; simp [a4, a3]; exact .inl (by omega), a5⟩
        · refine .inr ⟨col, row, by rw [hcov, a1, Bool.or_true], ?_⟩
          rw [c2] at a2
          have hrow : row ≠ oy + i := by
            rintro rfl
            simp [hnext] at a1
          simpa [hrow] using a2
      · rintro (h | ⟨col, row, a1, a2⟩)
        · exact .inl (.inl h)
        · rw [hcov, Bool.or_eq_true] at a1
          rcases a1 with a1 | a1
          · simp only [Bool.and_eq_true, decide_eq_true_eq] at a1
            obtain ⟨⟨rfl, b1, b2, b3⟩, b4⟩ := a1
            exact .inl (.inr ⟨col, b1, b2, b3, b4, a2⟩)
          · refine .inr ⟨col, row, a1, ?_⟩
            rw [c2]
            have hrow : row ≠ oy + i := by
              rintro rfl
              simp [hnext] at a1
            simpa [hrow] using a2

theorem coversFrom_zero {x y : RegIdx} {n : Nibble} (hw : 0 < s.cfg.fbW) (col row : Nat) :
    coversFrom s (originX s x) (originY s y) 0 (rowsOnScreen s y n) col row = spriteCovers s x y n col row := by
  have e : (originX s x ≤ col ∧ col < originX s x + 8 ∧ col < s.cfg.fbW) ↔
      (originX s x ≤ col ∧ col ≤ min (originX s x + 7) (s.cfg.fbW - 1)) := by omega
  rw [coversFrom, decide_eq_decide.2 e, Nat.add_zero]
  rfl

/-- What DRW draws: every pixel XORed with the sprite's bit there, and a collision exactly where a 1-bit met a
lit pixel. -/
theorem drawSprite_spec (x y : RegIdx) (n : Nibble) (hw : 0 < s.cfg.fbW)
    (hh : 0 < s.cfg.fbH) (hs : s.fb.sized s.cfg.fbW s.cfg.fbH = true) :
    (drawSprite s x y n).fb.sized s.cfg.fbW s.cfg.fbH = true ∧
    (∀ col row, (drawSprite s x y n).fb.get col row = (s.pixel col row ^^ spriteCovers s x y n col row)) ∧
    ((drawSprite s x y n).collision = true ↔
      ∃ col row, spriteCovers s x y n col row = true ∧ s.pixel col row = true) := by
  have hoy : originY s y < s.cfg.fbH := Nat.mod_lt _ hh
  have hk : originY s y + 0 + rowsOnScreen s y n ≤ s.cfg.fbH := by
    have : rowsOnScreen s y n ≤ s.cfg.fbH - originY s y := Nat.min_le_right _ _
    omega
  obtain ⟨h1, h2, h3⟩ := rows_spec (ox := originX s x) (p := ⟨s.fb, false⟩) hw 0 _ hk hs
  simp only [drawSprite, List.range_eq_range']
  refine ⟨h1, fun col row => ?_, ?_⟩
  · rw [h2, coversFrom_zero hw]; rfl
  · rw [h3]
    simp [coversFrom_zero hw, State.pixel]

/-- The blit depends on the state only through the framebuffer width, the index and memory. -/
theorem rows_congr {s' : State} (hc : s'.cfg = s.cfg) (hi : s'.i = s.i) (hm : ∀ a, s'.memRead a = s.memRead a)
    (l : List Nat) : Blit.rows s' ox oy l p = Blit.rows s ox oy l p := by
  induction l generalizing p with
  | nil => rfl
  | cons k l ih => simp only [Blit.rows, ih, hc, hm, spriteAddr, hi]

end Sys2Proof.Machine.Blit
end

