-- ==== Sys2Proof/Laws/Encoding.lean ====
section
/-! SUPPORT. The encoding forms as numbers. -/

namespace Sys2Proof

theorem toNat_cat {m n : Nat} (a : BitVec m) (b : BitVec n) :
    (a ++ b : BitVec (m + n)).toNat = a.toNat * 2 ^ n + b.toNat := by
  rw [BitVec.toNat_append, ← Nat.shiftLeft_add_eq_or_of_lt b.isLt, Nat.shiftLeft_eq]

theorem addressForm_toNat (c : Nibble) (a : Addr) : (addressForm c a).toNat = c.toNat * 4096 + a.toNat :=
  toNat_cat c a

theorem immediateForm_toNat (c x : Nibble) (nn : Byte) :
    (immediateForm c x nn).toNat = c.toNat * 4096 + x.toNat * 256 + nn.toNat := by
  have h1 : (immediateForm c x nn).toNat = c.toNat * 4096 + (x ++ nn : BitVec (4 + 8)).toNat := toNat_cat c (x ++ nn)
  rw [h1, toNat_cat]
  omega

theorem nibbleForm_toNat (c x y n : Nibble) :
    (nibbleForm c x y n).toNat = c.toNat * 4096 + x.toNat * 256 + y.toNat * 16 + n.toNat := by
  have h1 : (nibbleForm c x y n).toNat = c.toNat * 4096 + (x ++ (y ++ n) : BitVec (4 + (4 + 4))).toNat :=
    toNat_cat c (x ++ (y ++ n))
  rw [h1, toNat_cat, toNat_cat]
  omega

theorem wordOfBytes_toNat (hi lo : Byte) : (wordOfBytes hi lo).toNat = hi.toNat * 256 + lo.toNat :=
  toNat_cat hi lo

theorem highByte_toNat (w : Word) : (highByte w).toNat = w.toNat / 256 := by
  have := w.isLt
  simp only [highByte, BitVec.extractLsb'_toNat, Nat.shiftRight_eq_div_pow]
  omega

theorem lowByte_toNat (w : Word) : (lowByte w).toNat = w.toNat % 256 := by
  simp only [lowByte, BitVec.extractLsb'_toNat, Nat.shiftRight_eq_div_pow]
  omega

/-- The two bytes of a word make the word again. -/
@[simp] theorem wordOfBytes_bytes (w : Word) : wordOfBytes (highByte w) (lowByte w) = w := by
  apply BitVec.eq_of_toNat_eq
  rw [wordOfBytes_toNat, highByte_toNat, lowByte_toNat]
  omega

@[simp] theorem regOf_nibbleOf (r : RegIdx) : regOf (nibbleOf r) = r := rfl

@[simp] theorem nibbleOf_regOf (f : Nibble) : nibbleOf (regOf f) = f := rfl

end Sys2Proof
end

