-- ==== Sys2Proof/Laws/Ops.lean ====
section
/-! SUPPORT. One specification lemma per shared operation on registers and the call stack, and per cycle step. -/

namespace Sys2Proof.Machine

variable {s s' t : State} {r r' x : RegIdx} {b : Byte} {w : Word}

/-! ### Registers -/

theorem State.reg_setReg : (s.setReg r b).reg r' = if r' = r then b else s.reg r' := by
  simp only [State.reg, State.setReg, Fin.getElem_fin, Vector.getElem_set]
  by_cases h : r' = r
  · simp [h]
  · rw [if_neg h, if_neg (fun h' => h (Fin.ext h'.symm))]

theorem State.reg_setCollision (c : Bool) :
    (s.setCollision c).reg r' = if r' = flagReg then flagValue c else s.reg r' :=
  State.reg_setReg

/-! ### Call stack -/

theorem State.push?_eq_none : s.push? w = none ↔ s.stack.length = s.cfg.stackCap := by
  simp [State.push?]

theorem State.push?_eq_some : s.push? w = some s' ↔
    s.stack.length ≠ s.cfg.stackCap ∧ s' = s.setStack (s.stack ++ [w]) := by
  simp only [State.push?]
  split <;> simp_all [eq_comm]

theorem State.pop?_eq_none : s.pop? = none ↔ s.stack = [] := by
  simp only [State.pop?]
  split
  · next h => simpa using h
  · next h =>
    have : s.stack ≠ [] := fun h' => by simp [h'] at h
    simp [this]

theorem State.pop?_eq_some : s.pop? = some (w, s') ↔
    ∃ xs, s.stack = xs ++ [w] ∧ s' = s.setStack xs := by
  simp only [State.pop?]
  split
  · next h =>
    simp only [List.getLast?_eq_none_iff] at h
    simp [h]
  · next v h =>
    obtain ⟨ys, hy⟩ := List.getLast?_eq_some_iff.1 h
    simp only [hy, List.dropLast_concat, Option.some.injEq, Prod.mk.injEq]
    constructor
    · rintro ⟨rfl, rfl⟩; exact ⟨ys, rfl, rfl⟩
    · rintro ⟨xs, hx, rfl⟩
      obtain ⟨rfl, h2⟩ := List.append_inj' hx rfl
      exact ⟨by simpa using h2, rfl⟩

/-! ### Fatal conditions -/

theorem raiseInExecute_eq (kind : FatalKind) : raiseInExecute kind s =
    .fault (.fatal ⟨kind, s.pc - 2, s.current.map fun d => d.word, s⟩) := rfl

@[simp] theorem raiseInExecute_ne_next (kind : FatalKind) : raiseInExecute kind s ≠ .next t := by
  simp [raiseInExecute_eq]

@[simp] theorem raiseInExecute_ne_refused (kind : FatalKind) (q : Refusal) :
    raiseInExecute kind s ≠ .refused q := by
  simp [raiseInExecute_eq]

/-! ### Timers and the run state -/

theorem tickTimer_toNat (b : Byte) : (tickTimer b).toNat = b.toNat - 1 := by
  simp only [tickTimer]
  split
  · exact BitVec.toNat_sub_of_le (show 1#8 ≤ b from Nat.succ_le_of_lt ‹b.toNat > 0›)
  · omega

@[simp] theorem tickTimer_zero : tickTimer 0 = 0 := rfl

theorem RunState.after_quit {q : RunState} {inp : HostInput} (h : inp.quit = true) : q.after inp = .quit := by
  simp [RunState.after, h]

theorem State.fetchInBounds_iff : s.fetchInBounds = true ↔ s.pc.toNat + 2 ≤ s.cfg.memSize - 1 := by
  simp [State.fetchInBounds]

/-! ### The cycle -/

theorem finishCycle_eq_next {o : Host.Outcome State Fault Refusal} (h : finishCycle o = .next t) :
    ∃ u, o = .next u ∧ t = u.tick.present := by
  cases o with
  | next u => exact ⟨u, rfl, by simpa [finishCycle] using h.symm⟩
  | fault _ => simp [finishCycle] at h
  | refused _ => simp [finishCycle] at h

theorem finishCycle_eq_fault {o : Host.Outcome State Fault Refusal} {f : Fault}
    (h : finishCycle o = .fault f) : o = .fault f := by
  cases o with
  | next _ => simp [finishCycle] at h
  | fault _ => simpa [finishCycle] using h
  | refused _ => simp [finishCycle] at h

theorem finishCycle_eq_refused {o : Host.Outcome State Fault Refusal} {q : Refusal}
    (h : finishCycle o = .refused q) : o = .refused q := by
  cases o with
  | next _ => simp [finishCycle] at h
  | fault _ => simp [finishCycle] at h
  | refused _ => simpa [finishCycle] using h

/-- Everything an executed cycle that answers a next state has done. -/
theorem executedCycle_eq_next (h : executedCycle s = .next t) :
    s.fetchInBounds = true ∧ ∃ u, exec (decode s.fetchedWord) s.fetched = .next u ∧ t = u.tick.present := by
  simp only [executedCycle] at h
  split at h
  · next hb => exact ⟨hb, finishCycle_eq_next h⟩
  · simp [raiseFatal] at h

/-- Every way an executed cycle can end in a fault. -/
theorem executedCycle_eq_fault {f : Fault} (h : executedCycle s = .fault f) :
    (s.fetchInBounds = true ∧ exec (decode s.fetchedWord) s.fetched = .fault f) ∨
    (s.fetchInBounds = false ∧ f = .fatal ⟨.pcOutOfBounds, s.pc, none, s⟩) := by
  simp only [executedCycle] at h
  split at h
  · next hb => exact .inl ⟨hb, finishCycle_eq_fault h⟩
  · next hb => exact .inr ⟨by simpa using hb, by simpa [raiseFatal] using h.symm⟩

/-- What a cycle has done that answers a next state, from the state step 1 leaves: it was paused, or it ended at
step 2, or it executed one instruction. -/
theorem afterInput_eq_next (h : s.afterInput = .next t) :
    (s.run = .paused ∧ t = s.presentPaused) ∨
    (s.run = .quit ∧ s.cfg.quitCompletesCycle = false ∧ t = s) ∨
    (s.run ≠ .paused ∧ (s.run = .quit → s.cfg.quitCompletesCycle = true) ∧ s.fetchInBounds = true ∧
      ∃ u, exec (decode s.fetchedWord) s.fetched = .next u ∧ t = u.tick.present) := by
  simp only [State.afterInput] at h
  split at h
  · next hr => exact .inl ⟨hr, by simpa using h.symm⟩
  · next hr =>
    split at h
    · next hc => exact .inr (.inr ⟨by simp [hr], fun _ => hc, executedCycle_eq_next h⟩)
    · next hc => exact .inr (.inl ⟨hr, by simpa using hc, by simpa using h.symm⟩)
  · next hr => exact .inr (.inr ⟨by simp [hr], by simp [hr], executedCycle_eq_next h⟩)

/-- Every way a cycle can end in a fault, from the state step 1 leaves. -/
theorem afterInput_eq_fault {f : Fault} (h : s.afterInput = .fault f) :
    s.run ≠ .paused ∧
    ((s.fetchInBounds = true ∧ exec (decode s.fetchedWord) s.fetched = .fault f) ∨
     (s.fetchInBounds = false ∧ f = .fatal ⟨.pcOutOfBounds, s.pc, none, s⟩)) := by
  simp only [State.afterInput] at h
  split at h
  · simp at h
  · next hr =>
    split at h
    · exact ⟨by simp [hr], executedCycle_eq_fault h⟩
    · simp at h
  · next hr => exact ⟨by simp [hr], executedCycle_eq_fault h⟩

/-- Everything a step that answers a next state has done. -/
theorem stepCycle_eq_next (h : s.stepCycle = .next t) :
    s.run ≠ .quit ∧ (s.takeInput.applyInput s.nextInput).afterInput = .next t := by
  simp only [State.stepCycle] at h
  split at h
  · simp at h
  · next hq => exact ⟨hq, h⟩

/-- Every way a step can end in a fault. -/
theorem stepCycle_eq_fault {f : Fault} (h : s.stepCycle = .fault f) :
    (s.run = .quit ∧ f = .halted) ∨
    (s.run ≠ .quit ∧ (s.takeInput.applyInput s.nextInput).afterInput = .fault f) := by
  simp only [State.stepCycle] at h
  split at h
  · next hq => exact .inl ⟨hq, by simpa using h.symm⟩
  · next hq => exact .inr ⟨hq, h⟩

end Sys2Proof.Machine
end

