-- ==== Sys2Proof/Laws/Exec.lean ====
section
/-! SUPPORT. What each meaning can answer: its next state, its fault, and that no instruction is refused. -/

namespace Sys2Proof.Machine

variable {s t : State} {i : Instr} {x y : RegIdx} {n q : Nibble} {nnn : Addr} {f : Fault}

theorem execRet_eq_next : execRet q s = .next t ↔
    ∃ xs w, s.stack = xs ++ [w] ∧ t = (s.setStack xs).setPc w := by
  simp only [execRet]
  split
  · next h => simp [State.pop?_eq_none.1 h]
  · next w s' h =>
    obtain ⟨xs, hx, rfl⟩ := State.pop?_eq_some.1 h
    rw [hx]
    constructor
    · intro ht
      exact ⟨xs, w, rfl, by simpa using ht.symm⟩
    · rintro ⟨ys, v, hy, rfl⟩
      obtain ⟨rfl, hv⟩ := List.append_inj' hy rfl
      obtain rfl : w = v := by simpa using hv
      rfl

theorem execRet_eq_fault : execRet q s = .fault f ↔
    s.stack = [] ∧ raiseInExecute .stackUnderflow s = .fault f := by
  simp only [execRet]
  split
  · next h => simp [State.pop?_eq_none.1 h]
  · next w s' h =>
    obtain ⟨xs, hx, rfl⟩ := State.pop?_eq_some.1 h
    simp [hx]

theorem execCall_eq_next : execCall nnn s = .next t ↔
    s.stack.length ≠ s.cfg.stackCap ∧
      t = (s.setStack (s.stack ++ [s.pc])).setPc (addressOperand nnn) := by
  simp only [execCall]
  split
  · next h => simp [State.push?_eq_none.1 h]
  · next s' h =>
    obtain ⟨h1, rfl⟩ := State.push?_eq_some.1 h
    simp [h1, eq_comm]

theorem execCall_eq_fault : execCall nnn s = .fault f ↔
    s.stack.length = s.cfg.stackCap ∧ raiseInExecute .stackOverflow s = .fault f := by
  simp only [execCall]
  split
  · next h => simp [State.push?_eq_none.1 h]
  · next s' h =>
    obtain ⟨h1, rfl⟩ := State.push?_eq_some.1 h
    simp [h1]

theorem execDrw_eq_next : execDrw x y n s = .next t ↔
    spriteBeyondMemory s (rowsOnScreen s y n) = false ∧
      t = (s.setFb (drawSprite s x y n).fb).setCollision (drawSprite s x y n).collision := by
  simp only [execDrw]
  split
  · next h => simp [h]
  · next h => simp [h, eq_comm]

theorem execDrw_eq_fault : execDrw x y n s = .fault f ↔
    spriteBeyondMemory s (rowsOnScreen s y n) = true ∧ raiseInExecute .memoryOutOfBounds s = .fault f := by
  simp only [execDrw]
  split
  · next h => simp [h]
  · next h => simp [h]

theorem unsupported_eq_next : unsupported s = .next t ↔ s.cfg.unsupportedPolicy = .noOp ∧ t = s := by
  simp only [unsupported]
  split
  · next h => simp [h, eq_comm]
  · next h => simp [h]

theorem unsupported_eq_fault : unsupported s = .fault f ↔
    s.cfg.unsupportedPolicy = .fault ∧ raiseInExecute .unsupportedOpcode s = .fault f := by
  simp only [unsupported]
  split
  · next h => simp [h]
  · next h => simp [h]

/-- Whatever an instruction does, it touches only registers, index, pc, stack and framebuffer (R25). -/
theorem exec_eq_next (h : exec i s = .next t) :
    ∃ v ix pc stack fb, t = { s with v := v, i := ix, pc := pc, stack := stack, fb := fb } := by
  cases i with
  | cls => simp only [exec, execCls, Host.Outcome.next.injEq] at h; exact ⟨_, _, _, _, _, h.symm⟩
  | ret x => obtain ⟨xs, w, -, rfl⟩ := (execRet_eq_next (q := x)).1 h; exact ⟨_, _, _, _, _, rfl⟩
  | jp => simp only [exec, execJp, Host.Outcome.next.injEq] at h; exact ⟨_, _, _, _, _, h.symm⟩
  | call => obtain ⟨-, rfl⟩ := execCall_eq_next.1 h; exact ⟨_, _, _, _, _, rfl⟩
  | ldV => simp only [exec, execLdV, Host.Outcome.next.injEq] at h; exact ⟨_, _, _, _, _, h.symm⟩
  | addV => simp only [exec, execAddV, Host.Outcome.next.injEq] at h; exact ⟨_, _, _, _, _, h.symm⟩
  | ldI => simp only [exec, execLdI, Host.Outcome.next.injEq] at h; exact ⟨_, _, _, _, _, h.symm⟩
  | drw => obtain ⟨-, rfl⟩ := execDrw_eq_next.1 h; exact ⟨_, _, _, _, _, rfl⟩
  | _ => obtain ⟨-, rfl⟩ := unsupported_eq_next.1 h; exact ⟨_, _, _, _, _, rfl⟩

/-- Every fault an instruction can raise is one of four kinds, with the report of `raiseInExecute` and its cause. -/
theorem exec_eq_fault (h : exec i s = .fault f) :
    ∃ kind, f = .fatal ⟨kind, s.pc - 2, s.current.map fun d => d.word, s⟩ ∧
      ((kind = .stackUnderflow ∧ s.stack = [] ∧ ∃ x, i = .ret x) ∨
       (kind = .stackOverflow ∧ s.stack.length = s.cfg.stackCap ∧ ∃ a, i = .call a) ∨
       (kind = .memoryOutOfBounds ∧ ∃ x y n, i = .drw x y n ∧
          spriteBeyondMemory s (rowsOnScreen s y n) = true) ∨
       (kind = .unsupportedOpcode ∧ s.cfg.unsupportedPolicy = .fault ∧ i.unsupportedRow = true)) := by
  cases i with
  | cls => simp [exec, execCls] at h
  | ret x =>
    obtain ⟨h1, h2⟩ := (execRet_eq_fault (q := x)).1 h
    exact ⟨_, by simpa [raiseInExecute_eq] using h2.symm, .inl ⟨rfl, h1, x, rfl⟩⟩
  | jp => simp [exec, execJp] at h
  | call a =>
    obtain ⟨h1, h2⟩ := execCall_eq_fault.1 h
    exact ⟨_, by simpa [raiseInExecute_eq] using h2.symm, .inr (.inl ⟨rfl, h1, a, rfl⟩)⟩
  | ldV => simp [exec, execLdV] at h
  | addV => simp [exec, execAddV] at h
  | ldI => simp [exec, execLdI] at h
  | drw x y n =>
    obtain ⟨h1, h2⟩ := execDrw_eq_fault.1 h
    exact ⟨_, by simpa [raiseInExecute_eq] using h2.symm, .inr (.inr (.inl ⟨rfl, x, y, n, rfl, h1⟩))⟩
  | _ =>
    obtain ⟨h1, h2⟩ := unsupported_eq_fault.1 h
    exact ⟨_, by simpa [raiseInExecute_eq] using h2.symm, .inr (.inr (.inr ⟨rfl, h1, rfl⟩))⟩

/-- No instruction is refused. -/
theorem exec_ne_refused (q : Refusal) : exec i s ≠ .refused q := by
  cases i with
  | ret => simp only [exec, execRet]; split <;> simp
  | call => simp only [exec, execCall]; split <;> simp
  | drw => simp only [exec, execDrw]; split <;> simp
  | cls => simp [exec, execCls]
  | jp => simp [exec, execJp]
  | ldV => simp [exec, execLdV]
  | addV => simp [exec, execAddV]
  | ldI => simp [exec, execLdI]
  | _ => show unsupported s ≠ _; simp only [unsupported]; split <;> simp

end Sys2Proof.Machine
end

