-- ==== Sys2Proof/Laws/Memory.lean ====
section
/-! SUPPORT. What memory reads and writes do, and that every memory operation keeps the canonical form. -/

namespace Sys2Proof.Machine.Memory

variable {c : Config} {a k l : Nat} {b x : Byte} {m : Memory}

@[simp] theorem read_nil : Memory.read c a [] = c.constructedByte a := rfl

theorem read_cons : Memory.read c a ((k, x) :: m) = if k = a then x else Memory.read c a m := rfl

/-- A memory whose addresses rise from above `l` lists nothing at or below `l`. -/
theorem read_below (h : Memory.rising (some l) m = true) (ha : a ≤ l) :
    Memory.read c a m = c.constructedByte a := by
  induction m generalizing l with
  | nil => rfl
  | cons e m ih =>
    obtain ⟨k, x⟩ := e
    simp only [Memory.rising, Bool.and_eq_true, decide_eq_true_eq] at h
    rw [read_cons, if_neg (by omega), ih h.2 (by omega)]

theorem read_write_of_ne (h : a ≠ k) : Memory.read c a (Memory.write c k b m) = Memory.read c a m := by
  induction m with
  | nil => simp only [Memory.write]; split <;> simp [read_cons, Ne.symm h]
  | cons e m ih =>
    obtain ⟨j, x⟩ := e
    have hk : ∀ n, k = n → n ≠ a := fun n hn ha => h (hn.trans ha).symm
    simp only [Memory.write]
    (repeat' split) <;> simp_all [read_cons]

/-- Reading the address just written gives the byte written; rising addresses are needed where the write
removes an entry. -/
theorem read_write_same {lo : Option Nat} (h : Memory.rising lo m = true) :
    Memory.read c a (Memory.write c a b m) = b := by
  induction m generalizing lo with
  | nil => simp only [Memory.write]; split <;> simp_all [read_cons]
  | cons e m ih =>
    obtain ⟨j, x⟩ := e
    have hm : Memory.rising (some j) m = true := by
      simp only [Memory.rising, Bool.and_eq_true] at h; exact h.2
    simp only [Memory.write]
    split
    · split
      · next hb => rw [read_cons, if_neg (by omega), read_below hm (by omega), hb]
      · simp [read_cons]
    · split
      · split
        · next hb => rw [read_below hm (by omega), hb]
        · simp [read_cons]
      · rw [read_cons, if_neg (by omega), ih hm]

theorem rising_of_le {l l' : Nat} (h : Memory.rising (some l) m = true) (hl : l' ≤ l) :
    Memory.rising (some l') m = true := by
  cases m with
  | nil => rfl
  | cons e m =>
    simp only [Memory.rising, Bool.and_eq_true, decide_eq_true_eq] at h ⊢
    exact ⟨by omega, h.2⟩

theorem rising_none (h : Memory.rising (some l) m = true) : Memory.rising none m = true := by
  cases m with
  | nil => rfl
  | cons e m =>
    simp only [Memory.rising, Bool.and_eq_true] at h ⊢
    exact ⟨trivial, h.2⟩

theorem rising_write_some (h : Memory.rising (some l) m = true) (hl : l < a) :
    Memory.rising (some l) (Memory.write c a b m) = true := by
  induction m generalizing l with
  | nil => simp only [Memory.write]; split <;> simp [Memory.rising, hl]
  | cons e m ih =>
    obtain ⟨j, x⟩ := e
    simp only [Memory.rising, Bool.and_eq_true, decide_eq_true_eq] at h
    simp only [Memory.write]
    split
    · split <;> simp [Memory.rising, *]
    · split
      · split
        · exact rising_of_le h.2 (by omega)
        · next ha _ => subst ha; simp [Memory.rising, *]
      · have := ih h.2 (by omega)
        simp [Memory.rising, *]

theorem rising_write (h : Memory.rising none m = true) :
    Memory.rising none (Memory.write c a b m) = true := by
  cases m with
  | nil => simp only [Memory.write]; split <;> simp [Memory.rising]
  | cons e m =>
    obtain ⟨j, x⟩ := e
    simp only [Memory.rising, Bool.true_and] at h
    simp only [Memory.write]
    split
    · split <;> simp [Memory.rising, *]
    · split
      · split
        · exact rising_none h
        · next ha _ => subst ha; simp [Memory.rising, *]
      · have := rising_write_some (c := c) (b := b) h (a := a) (by omega)
        simp [Memory.rising, *]

/-- What a write can list: what was listed, and the byte written where it differs from the constructed one. -/
theorem mem_write {e : Host.Cell} (h : e ∈ Memory.write c a b m) :
    e ∈ m ∨ (e = (a, b) ∧ b ≠ c.constructedByte a) := by
  induction m with
  | nil =>
    simp only [Memory.write] at h
    split at h
    · simp at h
    · next hb => exact .inr ⟨by simpa using h, hb⟩
  | cons d m ih =>
    obtain ⟨j, x⟩ := d
    simp only [Memory.write] at h
    split at h
    · split at h
      · exact .inl h
      · next hb =>
        rcases List.mem_cons.1 h with h | h
        · exact .inr ⟨h, hb⟩
        · exact .inl h
    · split at h
      · split at h
        · exact .inl (List.mem_cons_of_mem _ h)
        · next hb =>
          rcases List.mem_cons.1 h with h | h
          · exact .inr ⟨h, hb⟩
          · exact .inl (List.mem_cons_of_mem _ h)
      · rcases List.mem_cons.1 h with h | h
        · exact .inl (h ▸ List.mem_cons_self)
        · exact (ih h).imp_left (List.mem_cons_of_mem _)

theorem wf_iff : Memory.wf c m = true ↔ Memory.rising none m = true ∧
    ∀ e ∈ m, e.1 < c.memSize ∧ e.2 ≠ c.constructedByte e.1 := by
  simp [Memory.wf]

@[simp] theorem wf_nil : Memory.wf c [] = true := rfl

/-- The canonical form is kept by every write inside the array. -/
theorem wf_write (h : Memory.wf c m = true) (ha : a < c.memSize) :
    Memory.wf c (Memory.write c a b m) = true := by
  rw [wf_iff] at h ⊢
  refine ⟨rising_write h.1, fun e he => ?_⟩
  rcases mem_write he with he | ⟨rfl, hb⟩
  · exact h.2 e he
  · exact ⟨ha, hb⟩

theorem read_write (h : Memory.wf c m = true) :
    Memory.read c k (Memory.write c a b m) = if k = a then b else Memory.read c k m := by
  split
  · next hk => rw [hk, read_write_same (wf_iff.1 h).1]
  · next hk => exact read_write_of_ne hk

/-- The Loader keeps the canonical form where the image fits. -/
theorem wf_load {bs : List Byte} (h : Memory.wf c m = true) (hf : a + bs.length ≤ c.memSize) :
    Memory.wf c (Memory.load c a bs m) = true := by
  induction bs generalizing a m with
  | nil => exact h
  | cons b bs ih =>
    simp only [List.length_cons] at hf
    exact ih (wf_write h (by omega)) (by omega)

end Sys2Proof.Machine.Memory
end

