-- ==== Sys2Proof/Laws/PerInstr.lean ====
section
/-! SUPPORT. Per-instruction facts about the encoding: the opcode-table row (match and mask) that selects an
instruction's word. -/

namespace Sys2Proof.Laws.TableRow

/-- The opcode class of an instruction's row in spec/opcode_table.json: bits 15..12 of its match. -/
def rowClass : Instr → Nat
  | .cls _ => 0
  | .ret _ => 0
  | .jp _ => 1
  | .call _ => 2
  | .ldV _ _ => 6
  | .addV _ _ => 7
  | .ldI _ => 10
  | .drw _ _ _ => 13
  | .unsupported0 _ _ => 0
  | .unsupported3 _ => 3
  | .unsupported4 _ => 4
  | .unsupported5 _ => 5
  | .unsupported8 _ => 8
  | .unsupported9 _ => 9
  | .unsupportedB _ => 11
  | .unsupportedC _ => 12
  | .unsupportedE _ => 14
  | .unsupportedF _ => 15

/-- The word of a well-formed instruction lies in its row: its class is the row's, and within class 0x0 its low
byte is 0xE0 for CLS, 0xEE for RET and neither for the unsupported row (spec/30_encoding.md R50, R52). -/
def Statement (i : Instr) : Prop :=
  i.wf = true →
    (encode i).toNat / 4096 = rowClass i ∧
    (rowClass i = 0 →
      ((encode i).toNat % 256 = 0xE0 ↔ ∃ q, i = .cls q) ∧ ((encode i).toNat % 256 = 0xEE ↔ ∃ q, i = .ret q))

theorem of_address {i : Instr} (c : Nibble) (a : Addr) (he : encode i = addressForm c a)
    (hc : rowClass i = c.toNat) (h0 : c.toNat ≠ 0) : Statement i := by
  intro _
  have := a.isLt
  rw [he, addressForm_toNat, hc]
  exact ⟨by omega, fun h => absurd h h0⟩

theorem of_immediate {i : Instr} (c x : Nibble) (nn : Byte) (he : encode i = immediateForm c x nn)
    (hc : rowClass i = c.toNat)
    (hk : i.wf = true → c.toNat = 0 → (nn.toNat = 0xE0 ↔ ∃ q, i = .cls q) ∧ (nn.toNat = 0xEE ↔ ∃ q, i = .ret q)) :
    Statement i := by
  intro hw
  have := x.isLt
  have := nn.isLt
  rw [he, immediateForm_toNat, hc]
  refine ⟨by omega, fun h => ?_⟩
  have e : (c.toNat * 4096 + x.toNat * 256 + nn.toNat) % 256 = nn.toNat := by omega
  rw [e]
  exact hk hw h

theorem cls (x : Nibble) : Statement (.cls x) :=
  of_immediate 0x0 x 0xE0 rfl rfl fun _ _ => by simp

theorem ret (x : Nibble) : Statement (.ret x) :=
  of_immediate 0x0 x 0xEE rfl rfl fun _ _ => by simp

theorem jp (nnn : Addr) : Statement (.jp nnn) := of_address 0x1 nnn rfl rfl (by decide)

theorem call (nnn : Addr) : Statement (.call nnn) := of_address 0x2 nnn rfl rfl (by decide)

theorem ldV (x : RegIdx) (nn : Byte) : Statement (.ldV x nn) :=
  of_immediate 0x6 (nibbleOf x) nn rfl rfl fun _ h => absurd h (by decide)

theorem addV (x : RegIdx) (nn : Byte) : Statement (.addV x nn) :=
  of_immediate 0x7 (nibbleOf x) nn rfl rfl fun _ h => absurd h (by decide)

theorem ldI (nnn : Addr) : Statement (.ldI nnn) := of_address 0xA nnn rfl rfl (by decide)

theorem drw (x y : RegIdx) (n : Nibble) : Statement (.drw x y n) := by
  intro _
  have h1 := (nibbleOf x).isLt
  have h2 := (nibbleOf y).isLt
  have h3 := n.isLt
  have hc : (0xD : Nibble).toNat = 13 := rfl
  simp only [encode, nibbleForm_toNat, hc, rowClass]
  exact ⟨by omega, fun h => by omega⟩

theorem unsupported0 (x : Nibble) (nn : Byte) : Statement (.unsupported0 x nn) :=
  of_immediate 0x0 x nn rfl rfl fun hw _ => by
    simp only [Instr.wf, Bool.and_eq_true, bne_iff_ne] at hw
    have h1 : nn.toNat ≠ 0xE0 := fun h => hw.1 (BitVec.eq_of_toNat_eq h)
    have h2 : nn.toNat ≠ 0xEE := fun h => hw.2 (BitVec.eq_of_toNat_eq h)
    simp [h1, h2]

theorem unsupported3 (bits : Addr) : Statement (.unsupported3 bits) :=
  of_address 0x3 bits rfl rfl (by decide)

theorem unsupported4 (bits : Addr) : Statement (.unsupported4 bits) :=
  of_address 0x4 bits rfl rfl (by decide)

theorem unsupported5 (bits : Addr) : Statement (.unsupported5 bits) :=
  of_address 0x5 bits rfl rfl (by decide)

theorem unsupported8 (bits : Addr) : Statement (.unsupported8 bits) :=
  of_address 0x8 bits rfl rfl (by decide)

theorem unsupported9 (bits : Addr) : Statement (.unsupported9 bits) :=
  of_address 0x9 bits rfl rfl (by decide)

theorem unsupportedB (bits : Addr) : Statement (.unsupportedB bits) :=
  of_address 0xB bits rfl rfl (by decide)

theorem unsupportedC (bits : Addr) : Statement (.unsupportedC bits) :=
  of_address 0xC bits rfl rfl (by decide)

theorem unsupportedE (bits : Addr) : Statement (.unsupportedE bits) :=
  of_address 0xE bits rfl rfl (by decide)

theorem unsupportedF (bits : Addr) : Statement (.unsupportedF bits) :=
  of_address 0xF bits rfl rfl (by decide)

end Sys2Proof.Laws.TableRow
end

