-- ==== Sys2Proof/Tests/Slice0.lean ====
section
/-! SUPPORT. Tests: the vectors of spec/95_test_vectors.md, the smoke tests of the well-formedness checks, and a
witness for every statement that has hypotheses. -/

namespace Sys2Proof.Tests

open Sys2Proof Sys2Proof.Machine

/-! ### Helpers -/

/-- The constructed state with an image, default parameters, quiet host. -/
def booted (image : List Byte) : State := constructed Config.default .zero image []

/-- The next state, if there is one. -/
def ans : Host.Outcome State Fault Refusal → Option State
  | .next s => some s
  | _ => none

/-- The fatal report, if there is one. -/
def report : Host.Outcome State Fault Refusal → Option FatalReport
  | .fault (.fatal r) => some r
  | _ => none

theorem exists_next {o : Host.Outcome State Fault Refusal} (h : (ans o).isSome = true) : ∃ t, o = .next t := by
  cases o with
  | next t => exact ⟨t, rfl⟩
  | fault _ => simp [ans] at h
  | refused _ => simp [ans] at h

theorem exists_fatal {o : Host.Outcome State Fault Refusal} (h : (report o).isSome = true) :
    ∃ r, o = .fault (.fatal r) := by
  match o, h with
  | .fault (.fatal r), _ => exact ⟨r, rfl⟩

theorem booted_sized (image : List Byte) : (booted image).fb.sized 64 32 = true := by
  rw [Framebuffer.sized_iff]
  simp [booted, constructed, ResetDraw.framebuffer, Config.default]

/-- A state about to run `w` at 0x200, with changes applied first. -/
def ready (w : Nat) (f : State → State) : State := (f State.reset).withFetchWord 16 w

/-- An input with a pause edge, and one with quit. -/
def pauseInput : HostInput := { HostInput.quiet with pauseEdge := true }
def quitInput : HostInput := { HostInput.quiet with quit := true }

/-- The default parameters with one changed. -/
def faultPolicy : Config := { Config.default with unsupportedPolicy := .fault }
def quitAtOnce : Config := { Config.default with quitCompletesCycle := false }

/-! ### Well-formedness refuses ill-formed terms -/

theorem test_wf_refuses_unsupported0_with_key_E0 : (Instr.unsupported0 3 0xE0).wf = false := by decide
theorem test_wf_refuses_unsupported0_with_key_EE : (Instr.unsupported0 0 0xEE).wf = false := by decide
theorem test_wf_accepts_unsupported0 : (Instr.unsupported0 0 0xEF).wf = true := by decide
theorem test_config_default_wf : Config.default.wf = true := by decide
theorem test_config_refuses_font_over_program :
    { Config.default with programBase := 79 }.wf = false := by decide
theorem test_config_refuses_no_room_for_a_word :
    { Config.default with memSize := 0x202 }.wf = false := by decide
theorem test_config_refuses_memory_beyond_16_bits :
    { Config.default with memSize := 65537 }.wf = false := by decide
theorem test_config_refuses_zero_width : { Config.default with fbW := 0 }.wf = false := by decide
theorem test_config_refuses_zero_height : { Config.default with fbH := 0 }.wf = false := by decide
theorem test_config_refuses_font_of_wrong_length : { Config.default with font := [] }.wf = false := by decide

/-! ### Decoding: one word written out from spec/30_encoding.md R46, R50 for every row -/

theorem test_decode_cls : decode 0b0000_0000_1110_0000 = .cls 0 := by decide
theorem test_decode_cls_ignores_x : decode 0b0000_0001_1110_0000 = .cls 1 := by decide
theorem test_decode_ret : decode 0b0000_1111_1110_1110 = .ret 0xF := by decide
theorem test_decode_jp : decode 0b0001_1010_1011_1100 = .jp 0xABC := by decide
theorem test_decode_call : decode 0b0010_0011_0000_0000 = .call 0x300 := by decide
theorem test_decode_ldV : decode 0b0110_1010_0000_0101 = .ldV 0xA 0x05 := by decide
theorem test_decode_addV : decode 0b0111_1010_0000_0010 = .addV 0xA 0x02 := by decide
theorem test_decode_ldI : decode 0b1010_0001_0010_0011 = .ldI 0x123 := by decide
theorem test_decode_drw : decode 0b1101_0001_0010_1111 = .drw 1 2 0xF := by decide
theorem test_decode_unsupported0 : decode 0b0000_0000_1111_1111 = .unsupported0 0 0xFF := by decide
theorem test_decode_unsupported3 : decode 0b0011_0000_0000_0000 = .unsupported3 0 := by decide
theorem test_decode_unsupported4 : decode 0b0100_0001_0010_0011 = .unsupported4 0x123 := by decide
theorem test_decode_unsupported5 : decode 0b0101_0001_0010_0000 = .unsupported5 0x120 := by decide
theorem test_decode_unsupported8 : decode 0b1000_1010_1011_0100 = .unsupported8 0xAB4 := by decide
theorem test_decode_unsupported9 : decode 0b1001_0001_0010_0000 = .unsupported9 0x120 := by decide
theorem test_decode_unsupportedB : decode 0b1011_0011_0000_0000 = .unsupportedB 0x300 := by decide
theorem test_decode_unsupportedC : decode 0b1100_0111_1111_1111 = .unsupportedC 0x7FF := by decide
theorem test_decode_unsupportedE : decode 0b1110_0101_1001_1110 = .unsupportedE 0x59E := by decide
theorem test_decode_unsupportedF : decode 0b1111_0000_0000_1010 = .unsupportedF 0x00A := by decide
theorem test_decodeTableWord : decodeTableWord 16 0xD011 = some (.drw 0 1 1) := by decide
theorem test_decodeBytes_truncated : decodeBytes [0x12] = .error .truncated := rfl
theorem test_encode_drw : encode (.drw 1 2 0xF) = 0xD12F := by decide

/-! ### One step each: spec/95_test_vectors.md, sections L2 -/

-- L2-S1
theorem test_cls : (ans (step (ready 0x01E0 fun s => { s with fb := s.fb.put 3 3 true }.setReg 0xF 9))).map
    (fun t => (t.pixel 3 3, t.reg 0xF, t.pc)) = some (false, 9, 0x202) := by decide
-- L2-F3
theorem test_ret : (ans (step (ready 0x00EE fun s => { s with stack := [0x202], pc := 0x306 }))).map
    (fun t => (t.pc, t.stack)) = some (0x202, []) := by decide
-- L2-F4
theorem test_ret_underflow : (report (step (ready 0x00EE id))).map
    (fun r => (r.kind.code, r.fetchAddr, r.word, r.state.pc)) = some (1, 0x200, some 0x00EE, 0x202) := by decide
-- L2-F1
theorem test_jp : (ans (step (ready 0x1ABC id))).map (fun t => (t.pc, t.stack)) = some (0xABC, []) := by decide
-- L2-F2
theorem test_call : (ans (step (ready 0x2300 id))).map (fun t => (t.pc, t.stack)) = some (0x300, [0x202]) := by
  decide
-- L2-F5
theorem test_call_overflow :
    (report (step (ready 0x2400 fun s => { s with stack := List.replicate 12 0x202, pc := 0x300 }))).map
      (fun r => (r.kind.code, r.state.pc, r.state.stack.length)) = some (2, 0x302, 12) := by decide
-- L2-R3
theorem test_ldV_flag_register : (ans (step (ready 0x6F07 fun s => s.setReg 0xF 1))).map (·.reg 0xF) = some 7 := by
  decide
-- L2-R5 and L2-R6
theorem test_addV_wraps : (ans (step (ready 0x7001 fun s => s.setReg 0 0xFF))).map
    (fun t => (t.reg 0, t.reg 0xF)) = some (0, 0) := by decide
theorem test_addV_keeps_flag : (ans (step (ready 0x70FF fun s => (s.setReg 0 0xFF).setReg 0xF 0x55))).map
    (fun t => (t.reg 0, t.reg 0xF)) = some (0xFE, 0x55) := by decide
-- L2-R11
theorem test_ldI : (ans (step (ready 0xAFFF id))).map (·.i) = some 0x0FFF := by decide
-- L2-S3
theorem test_drw_clips_at_the_right : (ans (step (ready 0xD011 fun s =>
    (({ s with mem := [(0x300, 0xFF)] }.setIndex 0x300).setReg 0 60)))).map
    (fun t => (t.pixel 59 0, t.pixel 60 0, t.pixel 63 0, t.pixel 0 1, t.reg 0xF)) =
      some (false, true, true, false, 0) := by decide
-- L2-S13
theorem test_drw_collides : (ans (step (ready 0xD011 fun s =>
    { s with mem := [(0x300, 0xC0)], fb := s.fb.put 1 0 true }.setIndex 0x300))).map
    (fun t => (t.pixel 0 0, t.pixel 1 0, t.reg 0xF)) = some (true, false, 1) := by decide
-- L2-S8
theorem test_drw_beyond_memory : (report (step (ready 0xD012 fun s =>
    { s with fb := s.fb.put 0 0 true }.setIndex 0xFFF |>.setReg 0xF 1))).map
    (fun r => (r.kind.code, r.state.reg 0xF, r.state.pixel 0 0, r.state.pc)) = some (4, 1, true, 0x202) := by decide
-- L2-S11
theorem test_drw_origin_from_old_flag : (ans (step (ready 0xDF01 fun s =>
    ({ s with mem := [(0x300, 0x80)] }.setIndex 0x300).setReg 0xF 5))).map
    (fun t => (t.pixel 5 0, t.pixel 0 0, t.reg 0xF)) = some (true, false, 0) := by decide
-- L2-S9: a row clipped at the bottom is not read
theorem test_drw_clipped_row_is_not_read : (ans (step (ready 0xD012 fun s =>
    ({ s with mem := [(0xFFF, 0x80)] }.setIndex 0xFFF).setReg 1 31))).map
    (fun t => (t.pixel 0 31, t.reg 0xF)) = some (true, 0) := by decide
-- L2-U6
theorem test_unsupported_ticks : (ans (step (ready 0x3000 fun s => { s with dt := 3 }))).map
    (fun t => (t.pc, t.dt, t.st)) = some (0x202, 2, 0) := by decide
-- L2-U2 and L2-U4
theorem test_unsupported0 : (ans (step (ready 0x0123 id))).map (·.pc) = some 0x202 := by decide
theorem test_unsupported_policy_fault : (report (step (ready 0x8014 fun s => { s with cfg := faultPolicy }))).map
    (fun r => (r.kind.code, r.fetchAddr, r.state.pc)) = some (5, 0x200, 0x202) := by decide

/-! ### The controller: spec/95_test_vectors.md, L2-C -/

-- L2-C2
theorem test_fetch_at_FFE : (report (step { State.reset with pc := 0xFFE })).map
    (fun r => (r.kind.code, r.fetchAddr, r.word, r.state.pc)) = some (3, 0xFFE, none, 0xFFE) := by decide
-- L2-C4
theorem test_fetch_at_FFD : (ans (step (ready 0x6042 fun s => { s with pc := 0xFFD }))).map
    (fun t => (t.reg 0, t.pc)) = some (0x42, 0xFFF) := by decide
-- L2-C7
theorem test_paused : (ans (step { State.reset with run := .paused, dt := 5 })).map
    (fun t => (t.dt, t.pc, t.run)) = some (5, 0x200, .paused) := by decide
-- L2-C10 (quit at once) and L2-C11 (quit over a pause edge, from Paused)
theorem test_quit_at_once : (ans (step { booted [0x60, 0x01] with cfg := quitAtOnce, inputs := [quitInput] })).map
    (fun t => (t.run, t.pc, t.reg 0)) = some (.quit, 0x200, 0) := by decide
theorem test_quit_over_pause : (ans (step { booted [0x60, 0x01] with
    run := .paused, inputs := [{ pauseInput with quit := true }] })).map
    (fun t => (t.run, t.pc, t.reg 0)) = some (.quit, 0x202, 1) := by decide
-- L2-C12
theorem test_latch : (ans (step { State.reset with
    inputs := [{ HostInput.quiet with keys := (Vector.replicate 16 false).set 5 true }] })).map
    (fun t => (t.keys[(5 : Fin 16)], t.keys[(4 : Fin 16)])) = some (true, false) := by decide
-- R153, R154: an image too large, and an empty one
theorem test_empty_image_is_accepted : (construct Config.default .zero [] []).isOk = true := by decide
theorem test_small_memory_refuses_a_longer_image :
    (construct { Config.default with memSize := 0x204 } .zero [1, 2, 3, 4, 5] []).isOk = false := by decide

/-! ### Witnesses: for every statement with hypotheses, a state and operands that meet them all -/

theorem test_witness_DecodeOfEncodeIsTheInstruction :
    (Instr.unsupported0 0xF 0xFF).wf = true ∧ (Instr.drw 0xF 0xF 0xF).wf = true := by decide
theorem test_witness_BytesOfAnInstructionDecodeBack : (Instr.jp 0xFFF).wf = true := by decide
theorem test_witness_StepRunsTheFetchedInstruction :
    let s := ready 0x6042 fun s => { s with pc := 0xFFD }
    s.Executes ∧ s.FetchFits ∧ s.HoldsAtPc 0x6042 := by decide
theorem test_witness_FetchedWordIsBigEndian : (booted [0x12, 0x00]).Executes ∧
    ∃ t, step (booted [0x12, 0x00]) = .next t := ⟨by decide, exists_next (by decide)⟩
theorem test_witness_RunState_quit : ({ State.reset with inputs := [quitInput] }).nextInput.quit = true ∧
    ∃ t, step { State.reset with inputs := [quitInput] } = .next t := ⟨by decide, exists_next (by decide)⟩
theorem test_witness_RunState_pause :
    let s := { State.reset with inputs := [pauseInput] }
    (s.nextInput.quit = false ∧ s.nextInput.pauseEdge = true ∧ s.run = .running) ∧ ∃ t, step s = .next t :=
  ⟨by decide, exists_next (by decide)⟩
theorem test_witness_RunState_resume :
    let s := { State.reset with inputs := [pauseInput], run := .paused }
    (s.nextInput.quit = false ∧ s.nextInput.pauseEdge = true ∧ s.run = .paused) ∧ ∃ t, step s = .next t :=
  ⟨by decide, exists_next (by decide)⟩
theorem test_witness_RunState_no_edge :
    let s := { State.reset with run := .paused }
    (s.nextInput.quit = false ∧ s.nextInput.pauseEdge = false) ∧ ∃ t, step s = .next t :=
  ⟨by decide, exists_next (by decide)⟩
theorem test_witness_LatchTakesTheHostKeys : (∃ t, step (ready 0x00E0 id) = .next t) ∧
    ∃ r, step (ready 0x00EE id) = .fault (.fatal r) := ⟨exists_next (by decide), exists_fatal (by decide)⟩
theorem test_witness_PausedCycleChangesOnlyTheLatch : { State.reset with inputs := [pauseInput] }.Pauses ∧
    { State.reset with run := .paused }.Pauses := by decide
theorem test_witness_FetchBeyondMemoryIsFatal :
    let s := { State.reset with pc := 0xFFE }
    s.Executes ∧ s.pc.toNat + 2 > s.cfg.memSize - 1 := by decide
theorem test_witness_Timers_executed :
    let s := ready 0x3000 fun s => { s with dt := 1, st := 0 }
    s.Executes ∧ ∃ t, step s = .next t := ⟨by decide, exists_next (by decide)⟩
theorem test_witness_Timers_paused :
    let s := { State.reset with run := .paused, dt := 0xFF }
    s.Pauses ∧ ∃ t, step s = .next t := ⟨by decide, exists_next (by decide)⟩
theorem test_witness_Timers_fatal : ∃ r, step { State.reset with pc := 0xFFF, st := 9 } = .fault (.fatal r) :=
  exists_fatal (by decide)
theorem test_witness_CyclePresents_executed : (ready 0x00E0 id).Executes ∧ ∃ t, step (ready 0x00E0 id) = .next t :=
  ⟨by decide, exists_next (by decide)⟩
theorem test_witness_CyclePresents_paused :
    let s := { State.reset with inputs := [pauseInput] }
    s.Pauses ∧ ∃ t, step s = .next t := ⟨by decide, exists_next (by decide)⟩
theorem test_witness_Quit_at_once :
    let s := { State.reset with inputs := [quitInput], cfg := quitAtOnce }
    s.run ≠ .quit ∧ s.nextInput.quit = true ∧ s.cfg.quitCompletesCycle = false := by decide
theorem test_witness_Quit_completing :
    let s := { State.reset with inputs := [quitInput], run := .paused }
    (s.run ≠ .quit ∧ s.nextInput.quit = true ∧ s.cfg.quitCompletesCycle = true ∧ s.FetchFits) ∧
      ∃ t, step s = .next t := ⟨by decide, exists_next (by decide)⟩
theorem test_witness_Quit_ended : { State.reset with run := .quit }.run = .quit := by decide
theorem test_witness_PcAdvances_other :
    let s := ready 0x6042 fun s => { s with pc := 0xFFD }
    (s.Executes ∧ s.cfg.memSize ≤ 65536 ∧ s.HoldsAtPc 0x6042 ∧ decode 0x6042 = .ldV 0 0x42) ∧
      ∃ t, step s = .next t := ⟨by decide, exists_next (by decide)⟩
theorem test_witness_PcAdvances_jump_and_call : (decode 0x1FFF = .jp 0xFFF ∧ decode 0x2000 = .call 0) ∧
    (∃ t, step (ready 0x1FFF id) = .next t) ∧ ∃ t, step (ready 0x2000 id) = .next t :=
  ⟨by decide, exists_next (by decide), exists_next (by decide)⟩
theorem test_witness_PcAdvances_return :
    let s := ready 0x00EE fun s => { s with stack := [0x202] }
    (s.Executes ∧ s.HoldsAtPc 0x00EE ∧ decode 0x00EE = .ret 0) ∧ ∃ t, step s = .next t :=
  ⟨by decide, exists_next (by decide)⟩
theorem test_witness_CallCyclePushesTheNextAddress :
    let s := ready 0x2400 fun s => { s with stack := List.replicate 11 0x202, pc := 0x300 }
    s.Executes ∧ s.cfg.memSize ≤ 65536 ∧ s.FetchFits ∧ s.HoldsAtPc 0x2400 ∧ decode 0x2400 = .call 0x400 ∧
      s.stack.length ≠ s.cfg.stackCap := by decide
theorem test_witness_Fatal_stackUnderflow : (ready 0x00EE id).HoldsAtPc 0x00EE ∧
    ∃ r, step (ready 0x00EE id) = .fault (.fatal r) := ⟨by decide, exists_fatal (by decide)⟩
theorem test_witness_Fatal_stackOverflow :
    let s := ready 0x2400 fun s => { s with stack := List.replicate 12 0x202 }
    s.HoldsAtPc 0x2400 ∧ ∃ r, step s = .fault (.fatal r) := ⟨by decide, exists_fatal (by decide)⟩
theorem test_witness_Fatal_pcOutOfBounds :
    let s := { State.reset with pc := 0xFFE }
    s.HoldsAtPc 0x0000 ∧ ∃ r, step s = .fault (.fatal r) := ⟨by decide, exists_fatal (by decide)⟩
theorem test_witness_Fatal_memoryOutOfBounds :
    let s := ready 0xD002 fun s => s.setIndex 0xFFF
    s.HoldsAtPc 0xD002 ∧ ∃ r, step s = .fault (.fatal r) := ⟨by decide, exists_fatal (by decide)⟩
theorem test_witness_Fatal_unsupportedOpcode :
    let s := ready 0x0000 fun s => { s with cfg := faultPolicy }
    s.HoldsAtPc 0x0000 ∧ ∃ r, step s = .fault (.fatal r) := ⟨by decide, exists_fatal (by decide)⟩
theorem construct_answers {c : Config} (draw : ResetDraw) {image : List Byte} (inputs : List HostInput)
    (hc : c.wf = true) (hl : image.length ≤ c.memSize - c.programBase) :
    ∃ s, construct c draw image inputs = .ok s :=
  ⟨constructed c draw image inputs, by simp [construct, hc, hl]⟩
theorem test_witness_Construction : Config.default.wf = true ∧
    (∃ s, construct Config.default .zero [0x12, 0x00] [] = .ok s) ∧
    [0x12, 0x00].length ≤ Config.default.memSize - Config.default.programBase ∧
    (0x200 ≤ 0x201 ∧ 0x201 < 0x200 + [0x12, 0x00].length) ∧ Config.default.resetFill = .zero :=
  have hc : Config.default.wf = true := by decide
  have hl : [0x12, 0x00].length ≤ Config.default.memSize - Config.default.programBase := by decide
  ⟨hc, construct_answers .zero [] hc hl, hl, by decide, rfl⟩
theorem test_witness_Construction_image_too_large :
    let c := { Config.default with memSize := 0x203 }
    c.wf = true ∧ [1, 2, 3, 4].length > c.memSize - c.programBase := by decide
/-- A state inside a subroutine that is about to call again. -/
def inCall : State := { booted [0x22, 0x00] with stack := [0x302] }
theorem test_witness_StepKeepsTheInvariants : inCall.Inv ∧ ∃ t, step inCall = .next t := by
  have hd : inCall.stack.length ≤ inCall.cfg.stackCap := by simp [inCall, booted, constructed, Config.default]
  have he : ∀ w ∈ inCall.stack, w.toNat ≤ inCall.cfg.memSize - 1 := by
    simp [inCall, booted, constructed, Config.default]
  have hp : inCall.pc.toNat ≤ max (inCall.cfg.memSize - 1) 0x0FFF := by
    simp [inCall, booted, constructed, Config.default]
  exact ⟨⟨by decide, by decide, booted_sized [0x22, 0x00], hd, hp, he⟩, exists_next (by decide)⟩
theorem test_witness_StepKeepsZeroFill : (booted [0xAF, 0xFF]).ZeroFill ∧
    ∃ t, step (booted [0xAF, 0xFF]) = .next t :=
  ⟨⟨by decide, by decide, by decide⟩, exists_next (by decide)⟩
theorem test_witness_StepNeverWritesMemory : ∃ t, step (ready 0xD00F id) = .next t := exists_next (by decide)
theorem test_witness_MemoryWrite : Memory.wf Config.default [(0x200, 1), (0xFFF, 2)] = true ∧
    0xFFF < Config.default.memSize := by decide
theorem test_witness_CanonicalMemories : Memory.wf Config.default [(0x200, 1)] = true ∧
    ∀ a, Memory.read Config.default a [(0x200, 1)] = Memory.read Config.default a [(0x200, 1)] :=
  ⟨by decide, fun _ => rfl⟩
theorem test_witness_PlacedWordIsFetchedNext :
    let s := { State.reset with run := .quit, pc := 0xFFF }
    s.cfg.wf = true ∧ Memory.wf s.cfg s.mem = true := by decide
theorem test_witness_ReturnPopsTheTop : { State.reset with stack := [0x202] }.stack = [] ++ [0x202] := by decide
theorem test_witness_ReturnOnEmptyStackIsFatal :
    let s := ready 0x0FEE id
    s.stack = [] ∧ s.Executes ∧ s.FetchFits ∧ s.cfg.memSize ≤ 65536 ∧ s.HoldsAtPc 0x0FEE ∧
      decode 0x0FEE = .ret 0xF := by decide
theorem test_witness_Jump_word : (0x1FFF : Word) &&& 0xF000 = 0x1000 := by decide
theorem test_witness_Jump_beyond_memory :
    let s := ready 0x1FFE id
    s.Executes ∧ s.HoldsAtPc 0x1FFE ∧ decode 0x1FFE = .jp 0xFFE ∧ (0xFFE : Addr).toNat + 2 > s.cfg.memSize - 1 ∧
      ∃ t, step s = .next t ∧ t.Executes := by
  refine ⟨by decide, by decide, by decide, by decide, _, rfl, by decide⟩
theorem test_witness_Call : ((0x2FFF : Word) &&& 0xF000 = 0x2000) ∧
    State.reset.stack.length ≠ State.reset.cfg.stackCap ∧
    { State.reset with stack := List.replicate 12 0 }.stack.length = State.reset.cfg.stackCap := by decide
theorem test_witness_CallAtCapacityIsFatal :
    let s := ready 0x2400 fun s => { s with stack := List.replicate 12 0x202 }
    s.stack.length = s.cfg.stackCap ∧ s.Executes ∧ s.FetchFits ∧ s.cfg.memSize ≤ 65536 ∧ s.HoldsAtPc 0x2400 ∧
      decode 0x2400 = .call 0x400 := by decide
theorem test_witness_ReturnResumesAfterItsCall :
    ∃ t, exec (.call 0x300) State.reset = .next t ∧ t.stack = [0x200] := ⟨_, rfl, rfl⟩
theorem test_witness_NestedCallsReturnInLifoOrder : State.reset.stack.length +
    (List.replicate 12 (0x300 : Addr)).length ≤ State.reset.cfg.stackCap := by decide
theorem test_witness_register_words : (0x6FFF : Word) &&& 0xF000 = 0x6000 ∧ (0x7000 : Word) &&& 0xF000 = 0x7000 ∧
    (0xAFFF : Word) &&& 0xF000 = 0xA000 := by decide
theorem test_witness_Draw_last_row_at_the_end_of_memory :
    let s := (booted []).setIndex 0xFFF
    (1 ≤ s.cfg.fbW ∧ 1 ≤ s.cfg.fbH ∧ s.i.toNat + spriteRows s 1 1 - 1 ≤ s.cfg.memSize - 1 ∧
      spriteRows s 1 0 = 0) ∧ s.fb.sized s.cfg.fbW s.cfg.fbH = true := ⟨by decide, booted_sized []⟩
theorem test_witness_Draw_beyond_memory :
    let s := State.reset.setIndex 0xFFF
    0 < spriteRows s 1 2 ∧ s.i.toNat + spriteRows s 1 2 - 1 > s.cfg.memSize - 1 := by decide
theorem test_witness_DrawingTwiceRestoresThePixels :
    let s := booted []
    (1 ≤ s.cfg.fbW ∧ 1 ≤ s.cfg.fbH ∧ (0 : RegIdx) ≠ 0xF ∧ (1 : RegIdx) ≠ 0xF ∧
      spriteCovers s 0 1 5 0 0 = true ∧ s.pixel 0 0 = false) ∧ s.fb.sized s.cfg.fbW s.cfg.fbH = true ∧
      ∃ t, exec (.drw 0 1 5) s = .next t := ⟨by decide, booted_sized [], exists_next (by decide)⟩
/-- A state whose screen is lit everywhere, about to draw the first row of the font's glyph 0 at the origin. -/
def allLit : State := { State.reset with fb := List.replicate 32 (List.replicate 64 true) }
theorem allLit_pixel {col row : Nat} (hc : col < 64) (hr : row < 32) : allLit.pixel col row = true :=
  Framebuffer.get_replicate hc hr
theorem allLit_sized : allLit.fb.sized allLit.cfg.fbW allLit.cfg.fbH = true := Framebuffer.sized_replicate
theorem test_witness_Draw_collision : (1 ≤ allLit.cfg.fbW ∧ 1 ≤ allLit.cfg.fbH ∧
      allLit.i.toNat + spriteRows allLit 1 1 - 1 ≤ allLit.cfg.memSize - 1) ∧
    allLit.fb.sized allLit.cfg.fbW allLit.cfg.fbH = true ∧
    ∃ col row, col < allLit.cfg.fbW ∧ row < allLit.cfg.fbH ∧
      spriteCovers allLit 0 1 1 col row = true ∧ allLit.pixel col row = true :=
  ⟨by decide, allLit_sized, 3, 0, by decide, by decide, by decide, allLit_pixel (by decide) (by decide)⟩
theorem test_witness_Draw_no_collision :
    (State.reset.fb.sized State.reset.cfg.fbW State.reset.cfg.fbH = true ∧
      State.reset.i.toNat + spriteRows State.reset 1 1 - 1 ≤ State.reset.cfg.memSize - 1) ∧
    spriteCovers State.reset 0 1 1 3 0 = true ∧
    ∀ col row, col < State.reset.cfg.fbW → row < State.reset.cfg.fbH →
      spriteCovers State.reset 0 1 1 col row = true → State.reset.pixel col row = false :=
  ⟨⟨Framebuffer.sized_blank, by decide⟩, by decide, fun _ _ _ _ _ => Framebuffer.get_blank⟩
theorem test_witness_DrawingTwice_all_covered_lit : (1 ≤ allLit.cfg.fbW ∧ 1 ≤ allLit.cfg.fbH ∧
      (0 : RegIdx) ≠ 0xF ∧ (1 : RegIdx) ≠ 0xF ∧ spriteCovers allLit 0 1 1 3 0 = true) ∧
    allLit.fb.sized allLit.cfg.fbW allLit.cfg.fbH = true ∧ (∃ t, exec (.drw 0 1 1) allLit = .next t) ∧
    ∀ col row, col < allLit.cfg.fbW → row < allLit.cfg.fbH →
      spriteCovers allLit 0 1 1 col row = true → allLit.pixel col row = true :=
  ⟨by decide, allLit_sized, exists_next (by decide), fun _ _ hc hr _ => allLit_pixel hc hr⟩
theorem test_witness_UnsupportedWordsAreNoOps : State.reset.cfg.unsupportedPolicy = .noOp := by decide
theorem test_witness_UnsupportedWordsFault : { State.reset with cfg := faultPolicy }.cfg.unsupportedPolicy = .fault ∧
    (Instr.unsupportedF 0xFFF).unsupportedRow = true := by decide
theorem test_witness_UnsupportedWordsFault_other_kind :
    ∃ r, exec (.ret 0) State.reset = .fault (.fatal r) := exists_fatal (by decide)
theorem test_witness_InstructionsWriteOnlyWhatIsListed : ∃ t, exec (.drw 0 1 5) State.reset = .next t ∧
    t.fb ≠ State.reset.fb := by
  obtain ⟨t, h⟩ := exists_next (o := exec (.drw 0 1 5) State.reset) (by decide)
  refine ⟨t, h, fun hf => ?_⟩
  have hp : (ans (exec (.drw 0 1 5) State.reset)).map (·.pixel 0 0) = some true := by decide
  rw [h] at hp
  simp only [ans, Option.map_some, State.pixel, hf, Option.some.injEq] at hp
  exact absurd hp (by decide)
theorem test_witness_KeysReachNothingButTheLatch :
    { State.reset with inputs := [quitInput, pauseInput] }.inputs = quitInput :: [pauseInput] := by decide
theorem test_witness_DiagnosticCopy : (State.reset.Executes ∧ State.reset.FetchFits) ∧
    { State.reset with run := .paused }.Pauses := by decide
theorem test_witness_RunOverInputs : State.reset.run ≠ .quit ∧
    ∃ t, runCycles State.reset [pauseInput] = .unfinished t := ⟨by decide, _, rfl⟩
theorem test_witness_RunSucceeds : State.reset.run ≠ .quit ∧
    ∃ t, runCycles { State.reset with cfg := quitAtOnce } [quitInput] = .halted t := ⟨by decide, _, rfl⟩

end Sys2Proof.Tests
end

section
/-! PROOFS. The family 10_state.md: what an instruction and a step can do, and the invariants they keep. -/

namespace Sys2Proof

/-- The constraints of spec/00_scope.md R6, each as a fact about numbers. -/
theorem Config.wf_iff {c : Config} : c.wf = true ↔
    c.fontBase + c.fontLen ≤ c.programBase ∧ c.programBase + 2 < c.memSize ∧ c.memSize ≤ 65536 ∧
      1 ≤ c.fbW ∧ 1 ≤ c.fbH ∧ c.font.length = c.fontLen := by
  simp [Config.wf, and_assoc]

theorem Config.constructedByte_font {c : Config} {a : Nat} (hlen : c.font.length = c.fontLen)
    (hlo : c.fontBase ≤ a) (hhi : a < c.fontBase + c.fontLen) :
    some (c.constructedByte a) = c.font[a - c.fontBase]? := by
  have hin : a - c.fontBase < c.font.length := by omega
  simp [Config.constructedByte, hlo, hhi, hin]

theorem Config.constructedByte_outside {c : Config} {a : Nat}
    (h : a < c.fontBase ∨ c.fontBase + c.fontLen ≤ a) : c.constructedByte a = 0 :=
  if_neg (by omega)

namespace Machine

variable {s t : State} {i : Instr}

/-! ### What an instruction can do -/

/-- The next state of each instruction, with the condition under which it has one: the meanings of
spec/41_flow.md to 44_unsupported.md in one table. -/
inductive ExecEffect (s : State) : Instr → State → Prop
  | cls (q : Nibble) : ExecEffect s (.cls q) (s.setFb (Framebuffer.blank s.cfg.fbW s.cfg.fbH))
  | ret (q : Nibble) (xs : List Word) (w : Word) (hs : s.stack = xs ++ [w]) :
      ExecEffect s (.ret q) ((s.setStack xs).setPc w)
  | jp (nnn : Addr) : ExecEffect s (.jp nnn) (s.setPc (addressOperand nnn))
  | call (nnn : Addr) (hd : s.stack.length ≠ s.cfg.stackCap) :
      ExecEffect s (.call nnn) ((s.setStack (s.stack ++ [s.pc])).setPc (addressOperand nnn))
  | ldV (x : RegIdx) (nn : Byte) : ExecEffect s (.ldV x nn) (s.setReg x nn)
  | addV (x : RegIdx) (nn : Byte) : ExecEffect s (.addV x nn) (s.setReg x (s.reg x + nn))
  | ldI (nnn : Addr) : ExecEffect s (.ldI nnn) (s.setIndex (addressOperand nnn))
  | drw (x y : RegIdx) (n : Nibble) (hb : spriteBeyondMemory s (rowsOnScreen s y n) = false) :
      ExecEffect s (.drw x y n) ((s.setFb (drawSprite s x y n).fb).setCollision (drawSprite s x y n).collision)
  | unsupported (i : Instr) (hu : i.unsupportedRow = true) (hp : s.cfg.unsupportedPolicy = .noOp) :
      ExecEffect s i s

theorem execEffect_of_exec (h : exec i s = .next t) : ExecEffect s i t := by
  cases i with
  | cls q => cases h; exact .cls q
  | ret q => obtain ⟨xs, w, hs, rfl⟩ := (execRet_eq_next (q := q)).1 h; exact .ret q xs w hs
  | jp nnn => cases h; exact .jp nnn
  | call nnn => obtain ⟨hd, rfl⟩ := execCall_eq_next.1 h; exact .call nnn hd
  | ldV x nn => cases h; exact .ldV x nn
  | addV x nn => cases h; exact .addV x nn
  | ldI nnn => cases h; exact .ldI nnn
  | drw x y n => obtain ⟨hb, rfl⟩ := execDrw_eq_next.1 h; exact .drw x y n hb
  | _ => obtain ⟨hp, rfl⟩ := unsupported_eq_next.1 h; exact .unsupported _ rfl hp

theorem restKept_of_exec (h : exec i s = .next t) : s.RestKept t := by
  obtain ⟨v, ix, pc, stack, fb, rfl⟩ := exec_eq_next h
  exact ⟨fun _ => rfl, rfl, rfl, rfl, rfl, rfl, rfl, rfl, rfl⟩

theorem addressOperand_toNat (nnn : Addr) : (addressOperand nnn).toNat = nnn.toNat := by
  have := nnn.isLt
  simp only [addressOperand, BitVec.toNat_setWidth]
  omega

theorem addressOperand_le (nnn : Addr) : (addressOperand nnn).toNat ≤ 0x0FFF := by
  have := nnn.isLt
  rw [addressOperand_toNat]
  omega

/-! ### What a step can do -/

/-- A step that answers a next state was paused, or ended at step 2, or executed the fetched instruction. -/
theorem step_eq_next (h : step s = .next t) :
    t = s.begun.presentPaused ∨ t = s.begun ∨
    (s.FetchFits ∧ ∃ u, exec (decode s.begun.fetchedWord) s.begun.fetched = .next u ∧ t = u.tick.present) := by
  obtain ⟨-, hafter⟩ := stepCycle_eq_next h
  obtain ⟨-, ht⟩ | ⟨-, -, ht⟩ | ⟨-, -, hfit, hexec⟩ := afterInput_eq_next hafter
  · exact .inl ht
  · exact .inr (.inl ht)
  · exact .inr (.inr ⟨State.fetchInBounds_iff.1 hfit, hexec⟩)

/-- From a state that has a next cycle, the step is what follows step 1 of it. -/
theorem step_of_run_ne_quit (h : s.run ≠ .quit) : step s = s.begun.afterInput := if_neg h

theorem step_of_executes (h : s.Executes) : step s = executedCycle s.begun := by
  obtain ⟨hr, hq, hc⟩ | ⟨hq, ⟨hr, he⟩ | ⟨hr, he⟩⟩ := h
  · simp [step_of_run_ne_quit hr, State.afterInput, State.begun, RunState.after, hq, hc]
  all_goals simp [step_of_run_ne_quit, hr, State.afterInput, State.begun, RunState.after, hq, he]

theorem step_of_executes_of_fetchFits (h : s.Executes) (hfit : s.FetchFits) :
    step s = finishCycle (exec (decode s.begun.fetchedWord) s.begun.fetched) := by
  rw [step_of_executes h]
  exact if_pos (State.fetchInBounds_iff.2 hfit)

theorem step_of_pauses (h : s.Pauses) : step s = .next s.begun.presentPaused := by
  obtain ⟨hq, ⟨hr, he⟩ | ⟨hr, he⟩⟩ := h <;>
    simp [step_of_run_ne_quit, hr, State.afterInput, State.begun, RunState.after, hq, he]

/-! ### R27, items 1 to 3: the invariants -/

theorem State.Inv.begun (hi : s.Inv) : s.begun.Inv := { hi with }

theorem State.Inv.presentPaused (hi : s.Inv) : s.presentPaused.Inv := { hi with }

theorem State.Inv.tick (hi : s.Inv) : s.tick.Inv := { hi with }

theorem State.Inv.present (hi : s.Inv) : s.present.Inv := { hi with }

/-- Memory has at most 2^16 bytes (R6), so where the fetch fits the advanced pc does not wrap and is an address. -/
theorem fetched_pc_le (hc : s.cfg.wf = true) (hfit : s.FetchFits) : s.fetched.pc.toNat ≤ s.cfg.memSize - 1 := by
  obtain ⟨-, -, hmem, -⟩ := Config.wf_iff.1 hc
  have htwo : (2 : Word).toNat = 2 := rfl
  rw [State.fetched_pc, BitVec.toNat_add, htwo]
  omega

theorem State.Inv.fetched (hi : s.Inv) (hfit : s.FetchFits) : s.fetched.Inv :=
  { hi with pcBound := (fetched_pc_le hi.cfgWf hfit).trans (Nat.le_max_left ..) }

/-- An instruction keeps the invariants where pc is an address, which is what CALL pushes. -/
theorem State.Inv.exec (hi : s.Inv) (hpc : s.pc.toNat ≤ s.cfg.memSize - 1) (h : exec i s = .next t) : t.Inv := by
  cases execEffect_of_exec h with
  | cls q => exact { hi with fbSized := Framebuffer.sized_blank }
  | ret q xs w hs =>
    have hdepth := hi.depth
    have hentries := hi.entries
    simp only [hs, List.length_append, List.mem_append] at hdepth hentries
    exact { hi with
      depth := Nat.le_of_add_right_le hdepth
      pcBound := (hentries w (by simp)).trans (Nat.le_max_left ..)
      entries := fun v hv => hentries v (.inl hv) }
  | jp nnn => exact { hi with pcBound := (addressOperand_le nnn).trans (Nat.le_max_right ..) }
  | call nnn hd =>
    have hroom : s.stack.length < s.cfg.stackCap := Nat.lt_of_le_of_ne hi.depth hd
    exact { hi with
      depth := by simpa using hroom
      pcBound := (addressOperand_le nnn).trans (Nat.le_max_right ..)
      entries := by
        intro w hw
        rcases List.mem_append.1 hw with hw | hw
        · exact hi.entries w hw
        · rw [List.mem_singleton.1 hw]; exact hpc }
  | ldV x nn => exact { hi with }
  | addV x nn => exact { hi with }
  | ldI nnn => exact { hi with }
  | drw x y n hb =>
    obtain ⟨-, -, -, hw, hh, -⟩ := Config.wf_iff.1 hi.cfgWf
    obtain ⟨hsized, -⟩ := Blit.drawSprite_spec x y n hw hh hi.fbSized
    exact { hi with fbSized := hsized }
  | unsupported _ hu hp => exact hi

/-- Settles O27: step 1, the paused hand-over, the fetch, the instruction, the tick and the hand-over each keep
the invariants. -/
theorem stepKeepsTheInvariants : Obligations.StepKeepsTheInvariants := by
  intro s t hi h
  obtain rfl | rfl | ⟨hfit, u, hu, rfl⟩ := step_eq_next h
  · exact hi.begun.presentPaused
  · exact hi.begun
  · exact ((hi.begun.fetched hfit).exec (fetched_pc_le hi.begun.cfgWf hfit) hu).tick.present

/-! ### R27, item 5: a 12-bit index and timers at zero -/

theorem index_eq_or_le_of_exec (h : exec i s = .next t) : t.i = s.i ∨ t.i.toNat ≤ 0x0FFF := by
  cases execEffect_of_exec h with
  | ldI nnn => exact .inr (addressOperand_le nnn)
  | _ => exact .inl rfl

theorem State.ZeroFill.exec (hz : s.ZeroFill) (h : exec i s = .next t) : t.ZeroFill where
  index := (index_eq_or_le_of_exec h).elim (fun he => he ▸ hz.index) id
  delay := (restKept_of_exec h).delay.trans hz.delay
  sound := (restKept_of_exec h).sound.trans hz.sound

theorem State.ZeroFill.tick (hz : s.ZeroFill) : s.tick.ZeroFill where
  index := hz.index
  delay := by rw [State.tick_dt, hz.delay, tickTimer_zero]
  sound := by rw [State.tick_st, hz.sound, tickTimer_zero]

/-- Settles O28: only LD I writes the index, with a 12-bit address, and a timer at zero ticks to zero. -/
theorem stepKeepsZeroFill : Obligations.StepKeepsZeroFill := by
  intro s t hz h
  obtain rfl | rfl | ⟨-, u, hu, rfl⟩ := step_eq_next h
  · exact { hz with }
  · exact { hz with }
  · have hfetched : s.begun.fetched.ZeroFill := { hz with }
    exact { (hfetched.exec hu).tick with }

/-! ### R25: which instruction writes which component -/

theorem reg_changed_of_exec (h : exec i s = .next t) {r : RegIdx} (hr : t.reg r ≠ s.reg r) :
    (∃ nn, i = .ldV r nn ∨ i = .addV r nn) ∨ (r = 0xF ∧ ∃ x y n, i = .drw x y n) := by
  cases execEffect_of_exec h with
  | ldV x nn =>
    obtain rfl : r = x := by_contra fun hx => hr (by rw [State.reg_setReg, if_neg hx])
    exact .inl ⟨nn, .inl rfl⟩
  | addV x nn =>
    obtain rfl : r = x := by_contra fun hx => hr (by rw [State.reg_setReg, if_neg hx])
    exact .inl ⟨nn, .inr rfl⟩
  | drw x y n hb =>
    have hflag : r = flagReg := by_contra fun hx => hr (by rw [State.reg_setCollision, if_neg hx, State.reg_setFb])
    exact .inr ⟨hflag, x, y, n, rfl⟩
  | _ => exact absurd rfl hr

theorem index_changed_of_exec (h : exec i s = .next t) (hi : t.i ≠ s.i) : ∃ a, i = .ldI a := by
  cases execEffect_of_exec h with
  | ldI nnn => exact ⟨nnn, rfl⟩
  | _ => exact absurd rfl hi

theorem pc_changed_of_exec (h : exec i s = .next t) (hpc : t.pc ≠ s.pc) :
    (∃ q, i = .ret q) ∨ ∃ a, i = .jp a ∨ i = .call a := by
  cases execEffect_of_exec h with
  | ret q => exact .inl ⟨q, rfl⟩
  | jp nnn => exact .inr ⟨nnn, .inl rfl⟩
  | call nnn => exact .inr ⟨nnn, .inr rfl⟩
  | _ => exact absurd rfl hpc

theorem stack_changed_of_exec (h : exec i s = .next t) (hs : t.stack ≠ s.stack) :
    (∃ q, i = .ret q) ∨ ∃ a, i = .call a := by
  cases execEffect_of_exec h with
  | ret q => exact .inl ⟨q, rfl⟩
  | call nnn => exact .inr ⟨nnn, rfl⟩
  | _ => exact absurd rfl hs

theorem fb_changed_of_exec (h : exec i s = .next t) (hfb : t.fb ≠ s.fb) :
    (∃ q, i = .cls q) ∨ ∃ x y n, i = .drw x y n := by
  cases execEffect_of_exec h with
  | cls q => exact .inl ⟨q, rfl⟩
  | drw x y n => exact .inr ⟨x, y, n, rfl⟩
  | _ => exact absurd rfl hfb

/-- Settles O49, one component at a time. -/
theorem instructionsWriteOnlyWhatIsListed : Obligations.InstructionsWriteOnlyWhatIsListed :=
  fun _ _ _ h => ⟨restKept_of_exec h, fun _ => reg_changed_of_exec h, index_changed_of_exec h,
    pc_changed_of_exec h, stack_changed_of_exec h, fb_changed_of_exec h⟩

/-! ### R23: the diagnostic copy -/

/-- Settles O51: the fetch overwrites `current_instruction` before the instruction executes, and a paused cycle
does not touch it. -/
theorem diagnosticCopyIsReadByNothing : Obligations.DiagnosticCopyIsReadByNothing := by
  intro s d
  constructor
  · intro hexec hfit
    rw [step_of_executes_of_fetchFits hexec hfit]
    exact step_of_executes_of_fetchFits (s := { s with current := d }) hexec hfit
  · intro hpause t ht
    obtain rfl : s.begun.presentPaused = t := by simpa [step_of_pauses hpause] using ht
    exact step_of_pauses (s := { s with current := d }) hpause

/-! ### Construction and reset -/

section Construction

variable {c : Config} {draw : ResetDraw} {image : List Byte} {inputs : List HostInput}

/-- What a construction that succeeds has checked and answers (R6, R153). -/
theorem construct_eq_ok : construct c draw image inputs = .ok s ↔
    c.wf = true ∧ image.length ≤ c.memSize - c.programBase ∧ s = constructed c draw image inputs := by
  by_cases hc : c.wf = true
  · by_cases hl : image.length ≤ c.memSize - c.programBase
    · simp [construct, hc, hl, eq_comm (a := s)]
    · simp [construct, hc, hl]
  · simp [construct, hc]

theorem ResetDraw.framebuffer_sized (d : ResetDraw) : (d.framebuffer c).sized c.fbW c.fbH = true := by
  simp [Framebuffer.sized_iff, ResetDraw.framebuffer]

theorem ResetDraw.framebuffer_zero : ResetDraw.zero.framebuffer c = Framebuffer.blank c.fbW c.fbH := by
  simp [ResetDraw.framebuffer, ResetDraw.zero, Framebuffer.blank]

theorem constructed_pc_toNat (hc : c.wf = true) :
    (constructed c draw image inputs).pc.toNat = c.programBase := by
  obtain ⟨-, hbase, hmem, -⟩ := Config.wf_iff.1 hc
  exact Nat.mod_eq_of_lt (by omega)

theorem constructed_inv (hc : c.wf = true) (hl : image.length ≤ c.memSize - c.programBase) :
    (constructed c draw image inputs).Inv := by
  obtain ⟨-, hbase, -⟩ := Config.wf_iff.1 hc
  have hfits : c.programBase + image.length ≤ c.memSize := by omega
  have hstart : c.programBase ≤ c.memSize - 1 := by omega
  exact {
    cfgWf := hc
    memWf := Memory.wf_load Memory.wf_nil hfits
    fbSized := ResetDraw.framebuffer_sized _
    depth := Nat.zero_le _
    pcBound := by
      rw [constructed_pc_toNat hc]
      exact hstart.trans (Nat.le_max_left ..)
    entries := fun _ hw => absurd hw List.not_mem_nil }

theorem constructed_zeroFill (h : c.resetFill = .zero) : (constructed c draw image inputs).ZeroFill := by
  have hdraw : draw.under c = .zero := by simp only [ResetDraw.under, h]
  constructor <;> simp [constructed, hdraw, ResetDraw.zero]

end Construction

/-- Settles O25: the image fits, so loading it keeps memory canonical, and everything else is what
`constructed` writes. -/
theorem constructionMeetsTheInvariants : Obligations.ConstructionMeetsTheInvariants := by
  intro c draw image inputs s h
  obtain ⟨hc, hl, rfl⟩ := construct_eq_ok.1 h
  exact ⟨constructed_inv hc hl, rfl, constructed_pc_toNat hc, constructed_zeroFill⟩

/-- The reset state is the state constructed at the default parameters with no image and a quiet host (log 19). -/
theorem construct_default_eq_reset : construct Config.default .zero [] [] = .ok State.reset := by
  refine construct_eq_ok.2 ⟨by decide, Nat.zero_le _, ?_⟩
  have hfb : State.reset.fb = ResetDraw.zero.framebuffer Config.default := ResetDraw.framebuffer_zero.symm
  rw [State.mk.injEq]
  exact ⟨rfl, rfl, rfl, rfl, rfl, hfb, rfl, rfl, rfl, rfl, rfl, rfl, rfl, rfl⟩

/-- Settles O26: the reset state is a constructed one. -/
theorem resetMeetsTheInvariants : Obligations.ResetMeetsTheInvariants := by
  obtain ⟨hinv, -, -, hzero⟩ := constructionMeetsTheInvariants _ _ _ _ _ construct_default_eq_reset
  exact ⟨hinv, hzero rfl⟩

theorem reset_memRead (a : Nat) : State.reset.memRead a = Config.default.constructedByte a := rfl

/-- Settles O21: memory lists nothing after reset, so an address reads as construction left it. -/
theorem resetHoldsWhatTheSourceFixes : Obligations.ResetHoldsWhatTheSourceFixes := by
  refine ⟨rfl, rfl, rfl, fun a ha => ?_, fun a ha => ?_⟩
  · rw [reset_memRead]
    exact Config.constructedByte_outside (.inr ha)
  · rw [reset_memRead]
    exact Config.constructedByte_font rfl (Nat.zero_le a) (by simpa [Config.default] using ha)

/-- Settles O22: each component is a replicated zero or false, or a literal. -/
theorem resetRestIsZero : Obligations.ResetRestIsZero := by
  have hsized : State.reset.fb.sized 64 32 = true := Framebuffer.sized_blank
  obtain ⟨hrows, hcols⟩ := Framebuffer.sized_iff.1 hsized
  exact ⟨fun r => Vector.getElem_replicate r.isLt, rfl, rfl, rfl, fun k => Vector.getElem_replicate k.isLt, rfl,
    hrows, hcols, fun _ _ => Framebuffer.get_blank⟩

end Machine

end Sys2Proof
end

section
/-! PROOFS. The family 20_memory.md: what loading does to memory, why its canonical form is unique, and the
instruction word as two bytes of memory. -/

namespace Sys2Proof

/-! ### R46: the fields of a word, and of each encoding form -/

section Fields

variable (w : Word)

theorem fields_cls_toNat : (fields w).cls.toNat = w.toNat / 4096 := by
  have := w.isLt
  simp only [fields, BitVec.extractLsb'_toNat, Nat.shiftRight_eq_div_pow]
  omega

theorem fields_x_toNat : (fields w).x.toNat = w.toNat / 256 % 16 := by
  simp only [fields, BitVec.extractLsb'_toNat, Nat.shiftRight_eq_div_pow]

theorem fields_y_toNat : (fields w).y.toNat = w.toNat / 16 % 16 := by
  simp only [fields, BitVec.extractLsb'_toNat, Nat.shiftRight_eq_div_pow]

theorem fields_n_toNat : (fields w).n.toNat = w.toNat % 16 := by
  simp only [fields, BitVec.extractLsb'_toNat, Nat.shiftRight_eq_div_pow]
  omega

theorem fields_nn_toNat : (fields w).nn.toNat = w.toNat % 256 := by
  simp only [fields, BitVec.extractLsb'_toNat, Nat.shiftRight_eq_div_pow]
  omega

theorem fields_nnn_toNat : (fields w).nnn.toNat = w.toNat % 4096 := by
  simp only [fields, BitVec.extractLsb'_toNat, Nat.shiftRight_eq_div_pow]
  omega

end Fields

section Forms

variable (c x y n : Nibble) (nn : Byte) (a : Addr)

@[simp] theorem fields_addressForm_cls : (fields (addressForm c a)).cls = c := by
  apply BitVec.eq_of_toNat_eq
  rw [fields_cls_toNat, addressForm_toNat]
  omega

@[simp] theorem fields_addressForm_nnn : (fields (addressForm c a)).nnn = a := by
  apply BitVec.eq_of_toNat_eq
  rw [fields_nnn_toNat, addressForm_toNat]
  omega

@[simp] theorem fields_immediateForm_cls : (fields (immediateForm c x nn)).cls = c := by
  apply BitVec.eq_of_toNat_eq
  rw [fields_cls_toNat, immediateForm_toNat]
  omega

@[simp] theorem fields_immediateForm_x : (fields (immediateForm c x nn)).x = x := by
  apply BitVec.eq_of_toNat_eq
  rw [fields_x_toNat, immediateForm_toNat]
  omega

@[simp] theorem fields_immediateForm_nn : (fields (immediateForm c x nn)).nn = nn := by
  apply BitVec.eq_of_toNat_eq
  rw [fields_nn_toNat, immediateForm_toNat]
  omega

@[simp] theorem fields_nibbleForm_cls : (fields (nibbleForm c x y n)).cls = c := by
  apply BitVec.eq_of_toNat_eq
  rw [fields_cls_toNat, nibbleForm_toNat]
  omega

@[simp] theorem fields_nibbleForm_x : (fields (nibbleForm c x y n)).x = x := by
  apply BitVec.eq_of_toNat_eq
  rw [fields_x_toNat, nibbleForm_toNat]
  omega

@[simp] theorem fields_nibbleForm_y : (fields (nibbleForm c x y n)).y = y := by
  apply BitVec.eq_of_toNat_eq
  rw [fields_y_toNat, nibbleForm_toNat]
  omega

@[simp] theorem fields_nibbleForm_n : (fields (nibbleForm c x y n)).n = n := by
  apply BitVec.eq_of_toNat_eq
  rw [fields_n_toNat, nibbleForm_toNat]
  omega

end Forms

/-- A well-formed instruction is what the decoder selects from its own word: the form's class selects the row,
and within class 0x0 the low byte does (R51, R52). -/
theorem decode_encode {i : Instr} (h : i.wf = true) : decode (encode i) = i := by
  cases i with
  | unsupported0 x nn =>
    obtain ⟨hcls, hret⟩ : nn ≠ 0xE0#8 ∧ nn ≠ 0xEE#8 := by simpa [Instr.wf] using h
    simp [decode, encode, select, hcls, hret]
  | _ => simp [decode, encode, select]

/-- Settles O6: the two bytes make the word again, and the word decodes to the instruction. -/
theorem bytesOfAnInstructionDecodeBack : Obligations.BytesOfAnInstructionDecodeBack := by
  intro i rest h
  constructor
  · calc decodeBytes (encodeBytes i ++ rest)
        = .ok (decode (wordOfBytes (highByte (encode i)) (lowByte (encode i))), rest) := rfl
      _ = .ok (i, rest) := by rw [wordOfBytes_bytes, decode_encode h]
  · simp [encodeBytes, ← highByte_toNat, ← lowByte_toNat]

namespace Machine

variable {c : Config} {m : Memory} {a k l : Nat} {bs : List Byte} {s : State}

/-! ### R150: what the Loader's placement reads as -/

/-- Outside the image's range loading changes no address. -/
theorem Memory.read_load_outside (h : k < a ∨ a + bs.length ≤ k) :
    Memory.read c k (Memory.load c a bs m) = Memory.read c k m := by
  induction bs generalizing a m with
  | nil => rfl
  | cons b bs ih =>
    rw [List.length_cons] at h
    rw [Memory.load, ih (by omega), Memory.read_write_of_ne (by omega)]

/-- Inside the image's range the memory reads as the image: the byte written at `a` stays, since the rest of the
image is placed above it. -/
theorem Memory.read_load_inside (hm : Memory.rising none m = true) (hlo : a ≤ k) (hhi : k < a + bs.length) :
    some (Memory.read c k (Memory.load c a bs m)) = bs[k - a]? := by
  induction bs generalizing a m with
  | nil => exact absurd hhi (Nat.not_lt.2 hlo)
  | cons b bs ih =>
    rw [List.length_cons] at hhi
    rw [Memory.load]
    obtain rfl | hk := Nat.eq_or_lt_of_le hlo
    · rw [Memory.read_load_outside (.inl a.lt_succ_self), Memory.read_write_same hm, Nat.sub_self,
        List.getElem?_cons_zero]
    · have hindex : k - a = (k - (a + 1)) + 1 := by omega
      rw [ih (Memory.rising_write hm) hk (by omega), hindex, List.getElem?_cons_succ]

/-- Settles O24: the font ends where the program begins or below (R6), so the image covers none of it. -/
theorem constructedMemoryHoldsFontAndImage : Obligations.ConstructedMemoryHoldsFontAndImage := by
  intro c draw image inputs s h a
  obtain ⟨hc, -, rfl⟩ := construct_eq_ok.1 h
  obtain ⟨hfont, -, -, -, -, hlen⟩ := Config.wf_iff.1 hc
  have hload : (constructed c draw image inputs).memRead a =
      Memory.read c a (Memory.load c c.programBase image []) := rfl
  rw [hload]
  refine ⟨fun hlo hhi => Memory.read_load_inside rfl hlo hhi, fun hlo hhi => ?_, fun himage hfree => ?_⟩
  · rw [Memory.read_load_outside (.inl (by omega)), Memory.read_nil, Config.constructedByte_font hlen hlo hhi]
  · rw [Memory.read_load_outside himage, Memory.read_nil, Config.constructedByte_outside hfree]

/-- Settles O30: the rules of a write, of which only reading the byte back needs the addresses to rise. -/
theorem memoryWriteReadsBackAndNothingElseMoves : Obligations.MemoryWriteReadsBackAndNothingElseMoves :=
  fun _ _ _ _ hm ha =>
    ⟨Memory.wf_write hm ha, Memory.read_write_same (Memory.wf_iff.1 hm).1, fun _ hk => Memory.read_write_of_ne hk⟩

/-! ### R30: the canonical form lists exactly the addresses that differ from construction -/

theorem Memory.rising_tail {lo : Option Nat} {d : Host.Cell} (h : Memory.rising lo (d :: m) = true) :
    Memory.rising (some d.1) m = true := by
  simp only [Memory.rising, Bool.and_eq_true] at h
  exact h.2

theorem Memory.lt_of_mem_of_rising {e : Host.Cell} (h : Memory.rising (some l) m = true) (he : e ∈ m) :
    l < e.1 := by
  induction m generalizing l with
  | nil => exact absurd he List.not_mem_nil
  | cons d m ih =>
    simp only [Memory.rising, Bool.and_eq_true, decide_eq_true_eq] at h
    obtain ⟨hl, hm⟩ := h
    rcases List.mem_cons.1 he with rfl | he
    · exact hl
    · exact hl.trans (ih hm he)

/-- In a memory with rising addresses every listed byte is the one read: no entry above it has its address. -/
theorem Memory.read_of_mem {lo : Option Nat} {e : Host.Cell} (h : Memory.rising lo m = true) (he : e ∈ m) :
    Memory.read c e.1 m = e.2 := by
  induction m generalizing lo with
  | nil => exact absurd he List.not_mem_nil
  | cons d m ih =>
    have hm := Memory.rising_tail h
    rcases List.mem_cons.1 he with rfl | he
    · rw [Memory.read_cons, if_pos rfl]
    · rw [Memory.read_cons, if_neg (Memory.lt_of_mem_of_rising hm he).ne, ih hm he]

theorem Memory.mem_of_read_ne (h : Memory.read c a m ≠ c.constructedByte a) : (a, Memory.read c a m) ∈ m := by
  induction m with
  | nil => exact absurd rfl h
  | cons d m ih =>
    rw [Memory.read_cons] at h ⊢
    split_ifs at h ⊢ with hd
    · rw [← hd]
      exact List.mem_cons_self
    · exact List.mem_cons_of_mem d (ih h)

theorem Memory.mem_iff_of_wf {e : Host.Cell} (h : Memory.wf c m = true) :
    e ∈ m ↔ Memory.read c e.1 m = e.2 ∧ e.2 ≠ c.constructedByte e.1 := by
  obtain ⟨hrising, hlisted⟩ := Memory.wf_iff.1 h
  constructor
  · exact fun he => ⟨Memory.read_of_mem hrising he, (hlisted e he).2⟩
  · rintro ⟨hread, hne⟩
    have hmem := Memory.mem_of_read_ne (hread ▸ hne)
    rwa [hread] at hmem

theorem Memory.pairwise_of_rising {lo : Option Nat} (h : Memory.rising lo m = true) :
    m.Pairwise (Prod.fst ⁻¹'o (· < ·)) := by
  induction m generalizing lo with
  | nil => exact .nil
  | cons d m ih =>
    have hm := Memory.rising_tail h
    exact .cons (fun e he => Memory.lt_of_mem_of_rising hm he) (ih hm)

/-- Settles O31: both lists have the same entries, those of the addresses that do not read as construction left
them, and a strictly rising list is determined by its entries. -/
theorem canonicalMemoriesThatReadAlikeAreEqual : Obligations.CanonicalMemoriesThatReadAlikeAreEqual := by
  intro c m m' hm hm' hread
  refine List.Pairwise.eq_of_mem_iff (Memory.pairwise_of_rising (Memory.wf_iff.1 hm).1)
    (Memory.pairwise_of_rising (Memory.wf_iff.1 hm').1) fun e => ?_
  rw [Memory.mem_iff_of_wf hm, Memory.mem_iff_of_wf hm', hread]

/-! ### R32, R35: the cycle reads memory and never writes it -/

theorem fetchedWord_toNat :
    s.fetchedWord.toNat = (s.memRead s.pc.toNat).toNat * 256 + (s.memRead (s.pc.toNat + 1)).toNat :=
  wordOfBytes_toNat _ _

/-- Settles O8: the fetch sets `current_instruction` to the fields of the word it read, and no instruction, tick
or hand-over writes it after that. -/
theorem fetchedWordIsBigEndian : Obligations.FetchedWordIsBigEndian := by
  intro s t hexecutes h
  rw [step_of_executes hexecutes] at h
  obtain ⟨-, u, hu, rfl⟩ := executedCycle_eq_next h
  exact ⟨s.begun.fetchedWord, fetchedWord_toNat, (restKept_of_exec hu).diagnostic⟩

/-- Settles O29: an instruction writes no memory and no parameter, nor does any other part of the cycle. -/
theorem stepNeverWritesMemory : Obligations.StepNeverWritesMemory := by
  intro s t h
  obtain rfl | rfl | ⟨-, u, hu, rfl⟩ := step_eq_next h
  · exact ⟨fun _ => rfl, rfl⟩
  · exact ⟨fun _ => rfl, rfl⟩
  · have hkept := restKept_of_exec hu
    exact ⟨hkept.memory, hkept.parameters⟩

end Machine

end Sys2Proof
end

section
/-! PROOFS. The family 30_encoding.md: every word is its fields put together again, so encoding inverts decoding,
and a row's masked bits are the fields that its encoding fixes. -/

namespace Sys2Proof

variable {w : Word} {i : Instr}

/-! ### R46: the fields overlap, and together they are the word -/

theorem fields_nn_eq (w : Word) : (fields w).nn = (fields w).y ++ (fields w).n := by
  apply BitVec.eq_of_toNat_eq
  rw [toNat_cat, fields_nn_toNat, fields_y_toNat, fields_n_toNat]
  omega

theorem fields_nnn_eq (w : Word) : (fields w).nnn = (fields w).x ++ (fields w).nn := by
  apply BitVec.eq_of_toNat_eq
  rw [toNat_cat, fields_nnn_toNat, fields_x_toNat, fields_nn_toNat]
  omega

@[simp] theorem addressForm_fields (w : Word) : addressForm (fields w).cls (fields w).nnn = w := by
  apply BitVec.eq_of_toNat_eq
  rw [addressForm_toNat, fields_cls_toNat, fields_nnn_toNat]
  omega

@[simp] theorem immediateForm_fields (w : Word) :
    immediateForm (fields w).cls (fields w).x (fields w).nn = w := by
  rw [immediateForm, ← fields_nnn_eq]
  exact addressForm_fields w

@[simp] theorem nibbleForm_fields (w : Word) :
    nibbleForm (fields w).cls (fields w).x (fields w).y (fields w).n = w := by
  rw [nibbleForm, ← fields_nn_eq]
  exact immediateForm_fields w

/-- Settles O3: each field as a number, and the two overlaps. -/
theorem decodedFieldsAreTheDocumentedBitRanges : Obligations.DecodedFieldsAreTheDocumentedBitRanges :=
  fun w => ⟨rfl, fields_cls_toNat w, fields_x_toNat w, fields_y_toNat w, fields_n_toNat w, fields_nn_toNat w,
    fields_nnn_toNat w, fields_nn_eq w, fields_nnn_eq w⟩

/-! ### R48: a form built on a word's own operands is that word iff the class is the word's -/

section Forms

variable {c : Nibble} {nn : Byte}

theorem addressForm_eq_iff : addressForm c (fields w).nnn = w ↔ (fields w).cls = c := by
  constructor
  · intro h
    rw [← h, fields_addressForm_cls]
  · rintro rfl
    exact addressForm_fields w

theorem immediateForm_eq_iff :
    immediateForm c (fields w).x nn = w ↔ (fields w).cls = c ∧ (fields w).nn = nn := by
  constructor
  · intro h
    rw [← h, fields_immediateForm_cls, fields_immediateForm_nn]
    exact ⟨rfl, rfl⟩
  · rintro ⟨rfl, rfl⟩
    exact immediateForm_fields w

theorem immediateForm_operands_eq_iff :
    immediateForm c (fields w).x (fields w).nn = w ↔ (fields w).cls = c :=
  immediateForm_eq_iff.trans (and_iff_left rfl)

theorem nibbleForm_eq_iff :
    nibbleForm c (fields w).x (fields w).y (fields w).n = w ↔ (fields w).cls = c := by
  constructor
  · intro h
    rw [← h, fields_nibbleForm_cls]
  · rintro rfl
    exact nibbleForm_fields w

end Forms

/-! ### R47, R53: encoding inverts decoding -/

theorem wf_decode (w : Word) : (decode w).wf = true := by
  unfold decode select
  split
  case h_1 =>
    split_ifs with hcls hret
    · rfl
    · rfl
    · simpa [Instr.wf] using ⟨hcls, hret⟩
  all_goals rfl

/-- In each arm of the decoder the row's form has the class that the arm matched, so by R48 it is the word. -/
theorem encode_decode (w : Word) : encode (decode w) = w := by
  unfold decode select
  split
  case h_1 h =>
    have hc : (fields w).cls = 0x0 := BitVec.eq_of_toNat_eq h
    split_ifs with hcls hret
    · exact immediateForm_eq_iff.2 ⟨hc, hcls⟩
    · exact immediateForm_eq_iff.2 ⟨hc, hret⟩
    · exact immediateForm_operands_eq_iff.2 hc
  case h_7 h | h_8 h => exact immediateForm_operands_eq_iff.2 (BitVec.eq_of_toNat_eq h)
  case h_14 h => exact nibbleForm_eq_iff.2 (BitVec.eq_of_toNat_eq h)
  case h_16 =>
    have hlt := (fields w).cls.isLt
    have h : (fields w).cls.toNat = 15 := by
      simp only [imp_false] at *
      omega
    exact addressForm_eq_iff.2 (BitVec.eq_of_toNat_eq h)
  all_goals
    next h => exact addressForm_eq_iff.2 (BitVec.eq_of_toNat_eq h)

theorem decode_eq_iff : decode w = i ↔ i.wf = true ∧ encode i = w := by
  constructor
  · rintro rfl
    exact ⟨wf_decode w, encode_decode w⟩
  · rintro ⟨h, rfl⟩
    exact decode_encode h

/-- Settles O1: the operands of a well-formed instruction are the fields of its own word. -/
theorem decodeOfEncodeIsTheInstruction : Obligations.DecodeOfEncodeIsTheInstruction :=
  fun _ => decode_encode

/-- Settles O2: the row the decoder selects has the word's class, and its operands are the word's other bits. -/
theorem encodeOfDecodeIsTheWord : Obligations.EncodeOfDecodeIsTheWord :=
  fun w => ⟨wf_decode w, encode_decode w⟩

/-- Settles O5: each word is the encoding of the instruction its table gives. -/
theorem tabledWordsDecodeAsTabled : Obligations.TabledWordsDecodeAsTabled :=
  ⟨decode_eq_iff.2 ⟨rfl, rfl⟩, decode_eq_iff.2 ⟨rfl, rfl⟩, decode_eq_iff.2 ⟨rfl, rfl⟩,
    decode_eq_iff.2 ⟨rfl, rfl⟩, decode_eq_iff.2 ⟨rfl, rfl⟩, decode_eq_iff.2 ⟨rfl, rfl⟩,
    decode_eq_iff.2 ⟨rfl, rfl⟩, decode_eq_iff.2 ⟨rfl, rfl⟩, decode_eq_iff.2 ⟨rfl, rfl⟩,
    decode_eq_iff.2 ⟨rfl, rfl⟩, decode_eq_iff.2 ⟨rfl, rfl⟩, decode_eq_iff.2 ⟨rfl, rfl⟩⟩

/-! ### R50, R51: the masked bits of a row are the class, and inside class 0x0 the low byte too -/

section Masks

variable {c : Nibble} {nn : Byte}

theorem addressForm_and (c d : Nibble) (a b : Addr) :
    addressForm c a &&& addressForm d b = addressForm (c &&& d) (a &&& b) :=
  BitVec.and_append

theorem and_classMask (w : Word) : w &&& 0xF000 = addressForm (fields w).cls 0 :=
  calc w &&& 0xF000
    _ = addressForm (fields w).cls (fields w).nnn &&& addressForm (BitVec.allOnes 4) 0 := by
      rw [addressForm_fields]
      rfl
    _ = addressForm (fields w).cls 0 := by
      rw [addressForm_and, BitVec.and_allOnes]
      exact congrArg _ BitVec.and_zero

theorem and_lowByteMask (w : Word) : w &&& 0xF0FF = immediateForm (fields w).cls 0 (fields w).nn :=
  calc w &&& 0xF0FF
    _ = addressForm (fields w).cls (fields w).nnn &&& addressForm (BitVec.allOnes 4) (0#4 ++ BitVec.allOnes 8) := by
      rw [addressForm_fields]
      rfl
    _ = immediateForm (fields w).cls 0 (fields w).nn := by
      have h : (fields w).nnn &&& (0#4 ++ BitVec.allOnes 8) = 0#4 ++ (fields w).nn := by
        rw [fields_nnn_eq, BitVec.and_append, BitVec.and_zero, BitVec.and_allOnes]
      rw [addressForm_and, BitVec.and_allOnes, h]
      rfl

theorem and_classMask_eq_iff : w &&& 0xF000 = addressForm c 0 ↔ (fields w).cls = c := by
  rw [and_classMask]
  exact BitVec.append_left_inj 0

theorem and_lowByteMask_eq_iff :
    w &&& 0xF0FF = immediateForm c 0 nn ↔ (fields w).cls = c ∧ (fields w).nn = nn := by
  rw [and_lowByteMask, eq_comm]
  simpa using immediateForm_eq_iff (c := c) (nn := nn) (w := immediateForm (fields w).cls 0 (fields w).nn)

end Masks

/-- A row whose encoding, with the word's own operands, fixes the class alone. -/
theorem and_classMask_iff_decode_eq (c : Nibble) (hwf : i.wf = true) (hi : encode i = w ↔ (fields w).cls = c) :
    w &&& 0xF000 = addressForm c 0 ↔ decode w = i := by
  rw [and_classMask_eq_iff, decode_eq_iff, and_iff_right hwf, hi]

/-- CLS and RET: the encoding fixes the class and the low byte, and leaves `x` free (R52). -/
theorem and_lowByteMask_iff_decode_eq (c : Nibble) (nn : Byte) (hwf : i.wf = true)
    (hi : encode i = immediateForm c (fields w).x nn) :
    w &&& 0xF0FF = immediateForm c 0 nn ↔ decode w = i := by
  rw [and_lowByteMask_eq_iff, decode_eq_iff, and_iff_right hwf, hi, immediateForm_eq_iff]

/-- The class-0x0 unsupported row is well-formed exactly where neither low byte of R52 matches. -/
theorem masks_iff_decode_eq_unsupported0 :
    w &&& 0xF000 = 0x0000 ∧ w &&& 0xF0FF ≠ 0x00E0 ∧ w &&& 0xF0FF ≠ 0x00EE ↔
      decode w = .unsupported0 (fields w).x (fields w).nn := by
  have hclass : w &&& 0xF000 = 0x0000 ↔ (fields w).cls = 0x0 := and_classMask_eq_iff (c := 0x0)
  have hcls : w &&& 0xF0FF = 0x00E0 ↔ (fields w).cls = 0x0 ∧ (fields w).nn = 0xE0 :=
    and_lowByteMask_eq_iff (c := 0x0) (nn := 0xE0)
  have hret : w &&& 0xF0FF = 0x00EE ↔ (fields w).cls = 0x0 ∧ (fields w).nn = 0xEE :=
    and_lowByteMask_eq_iff (c := 0x0) (nn := 0xEE)
  have hform : encode (.unsupported0 (fields w).x (fields w).nn) = w ↔ (fields w).cls = 0x0 :=
    immediateForm_operands_eq_iff
  rw [decode_eq_iff, hform, hclass, Ne, hcls, Ne, hret]
  simp only [Instr.wf, Bool.and_eq_true, bne_iff_ne]
  tauto

/-- Settles O4: the decoder answers a row's instruction iff the word is its encoding, and the encoding fixes exactly
the bits of the row's mask. -/
theorem wordsSelectTheirOpcodeRow : Obligations.WordsSelectTheirOpcodeRow :=
  fun _ =>
    ⟨and_lowByteMask_iff_decode_eq 0x0 0xE0 rfl rfl,
    and_lowByteMask_iff_decode_eq 0x0 0xEE rfl rfl,
    and_classMask_iff_decode_eq 0x1 rfl addressForm_eq_iff,
    and_classMask_iff_decode_eq 0x2 rfl addressForm_eq_iff,
    and_classMask_iff_decode_eq 0x6 rfl immediateForm_operands_eq_iff,
    and_classMask_iff_decode_eq 0x7 rfl immediateForm_operands_eq_iff,
    and_classMask_iff_decode_eq 0xA rfl addressForm_eq_iff,
    and_classMask_iff_decode_eq 0xD rfl nibbleForm_eq_iff,
    masks_iff_decode_eq_unsupported0,
    and_classMask_iff_decode_eq 0x3 rfl addressForm_eq_iff,
    and_classMask_iff_decode_eq 0x4 rfl addressForm_eq_iff,
    and_classMask_iff_decode_eq 0x5 rfl addressForm_eq_iff,
    and_classMask_iff_decode_eq 0x8 rfl addressForm_eq_iff,
    and_classMask_iff_decode_eq 0x9 rfl addressForm_eq_iff,
    and_classMask_iff_decode_eq 0xB rfl addressForm_eq_iff,
    and_classMask_iff_decode_eq 0xC rfl addressForm_eq_iff,
    and_classMask_iff_decode_eq 0xE rfl addressForm_eq_iff,
    and_classMask_iff_decode_eq 0xF rfl addressForm_eq_iff⟩

end Sys2Proof
end

section
/-! PROOFS. The family 40_controller.md: the input step, the executed cycle, pc through a cycle, the placed word,
and the run as the steps over its inputs. -/

namespace Sys2Proof.Machine

variable {s t u : State} {i : Instr} {w : Word} {inp : HostInput}

/-! ### Step 1: the transition table (R62) -/

section TransitionTable

variable {q : RunState}

theorem RunState.after_running_of_pauseEdge (hq : inp.quit = false) (he : inp.pauseEdge = true) :
    RunState.running.after inp = .paused := by
  simp [RunState.after, hq, he]

theorem RunState.after_paused_of_pauseEdge (hq : inp.quit = false) (he : inp.pauseEdge = true) :
    RunState.paused.after inp = .running := by
  simp [RunState.after, hq, he]

theorem RunState.after_of_no_edge (hq : inp.quit = false) (he : inp.pauseEdge = false) : q.after inp = q := by
  simp [RunState.after, hq, he]

/-- Only a quit input leads to Quit. -/
theorem RunState.quit_of_after_eq_quit (hr : q ≠ .quit) (h : q.after inp = .quit) : inp.quit = true := by
  by_contra hq
  rw [Bool.not_eq_true] at hq
  cases he : inp.pauseEdge with
  | false => exact hr ((RunState.after_of_no_edge hq he).symm.trans h)
  | true =>
    cases q with
    | running => simp [RunState.after_running_of_pauseEdge hq he] at h
    | paused => simp [RunState.after_paused_of_pauseEdge hq he] at h
    | quit => exact hr rfl

end TransitionTable

theorem begun_run_of_pauses (h : s.Pauses) : s.begun.run = .paused := by
  obtain ⟨hq, ⟨hr, he⟩ | ⟨hr, he⟩⟩ := h
  · calc s.begun.run = RunState.running.after s.nextInput := congrArg (·.after s.nextInput) hr
      _ = .paused := RunState.after_running_of_pauseEdge hq he
  · exact (RunState.after_of_no_edge hq he).trans hr

/-! ### What follows step 1 (R61 to R70) -/

theorem afterInput_of_paused (hr : s.run = .paused) : s.afterInput = .next s.presentPaused := by
  simp [State.afterInput, hr]

theorem afterInput_of_quit_at_once (hr : s.run = .quit) (hc : s.cfg.quitCompletesCycle = false) :
    s.afterInput = .next s := by
  simp [State.afterInput, hr, hc]

theorem afterInput_of_executing (hr : s.run ≠ .paused) (hc : s.run = .quit → s.cfg.quitCompletesCycle = true) :
    s.afterInput = executedCycle s := by
  unfold State.afterInput
  split
  · next hp => exact absurd hp hr
  · next hq => exact if_pos (hc hq)
  · rfl

theorem executedCycle_of_exec (hfit : s.fetchInBounds = true)
    (hu : exec (decode s.fetchedWord) s.fetched = .next u) : executedCycle s = .next u.tick.present := by
  rw [executedCycle, if_pos hfit, hu, finishCycle]

/-- Nothing after step 1 writes the run state or the latch. -/
theorem afterInput_keeps_run_keys (h : s.afterInput = .next t) : t.run = s.run ∧ t.keys = s.keys := by
  obtain ⟨-, rfl⟩ | ⟨-, -, rfl⟩ | ⟨-, -, -, u, hu, rfl⟩ := afterInput_eq_next h
  · exact ⟨rfl, rfl⟩
  · exact ⟨rfl, rfl⟩
  · have hkept := restKept_of_exec hu
    exact ⟨hkept.runState, hkept.latch⟩

theorem step_eq_next_keeps_run_keys (h : step s = .next t) :
    t.run = s.run.after s.nextInput ∧ t.keys = s.nextInput.keys :=
  afterInput_keeps_run_keys (stepCycle_eq_next h).2

/-- A fault after step 1 is a fatal report, of the state step 1 left or of that state after the fetch. -/
theorem afterInput_fault_is_fatal {f : Fault} (h : s.afterInput = .fault f) :
    ∃ r, f = .fatal r ∧ (r.state = s ∨ r.state = s.fetched) := by
  obtain ⟨-, ⟨-, hexec⟩ | ⟨-, rfl⟩⟩ := afterInput_eq_fault h
  · obtain ⟨kind, rfl, -⟩ := exec_eq_fault hexec
    exact ⟨_, rfl, .inr rfl⟩
  · exact ⟨_, rfl, .inl rfl⟩

theorem afterInput_ne_halted : s.afterInput ≠ .fault .halted := by
  intro h
  obtain ⟨r, hr, -⟩ := afterInput_fault_is_fatal h
  cases hr

theorem step_fatal_state {r : FatalReport} (h : step s = .fault (.fatal r)) :
    r.state = s.begun ∨ r.state = s.begun.fetched := by
  obtain ⟨-, hr⟩ | ⟨-, hafter⟩ := stepCycle_eq_fault h
  · cases hr
  · obtain ⟨r', hr, hstate⟩ := afterInput_fault_is_fatal hafter
    cases hr
    exact hstate

theorem step_eq_halted_iff : step s = .fault .halted ↔ s.run = .quit := by
  constructor
  · intro h
    obtain ⟨hq, -⟩ | ⟨-, hafter⟩ := stepCycle_eq_fault h
    · exact hq
    · exact absurd hafter afterInput_ne_halted
  · exact fun hq => if_pos hq

theorem executedCycle_ne_refused (q : Refusal) : executedCycle s ≠ .refused q := by
  simp only [executedCycle]
  split
  · exact fun h => exec_ne_refused q (finishCycle_eq_refused h)
  · simp [raiseFatal]

theorem afterInput_ne_refused (q : Refusal) : s.afterInput ≠ .refused q := by
  simp only [State.afterInput]
  split
  · simp
  · split
    · exact executedCycle_ne_refused q
    · simp
  · exact executedCycle_ne_refused q

theorem step_ne_refused (q : Refusal) : step s ≠ .refused q := by
  by_cases hr : s.run = .quit
  · simp [step_eq_halted_iff.2 hr]
  · rw [step_of_run_ne_quit hr]
    exact afterInput_ne_refused q

/-- An executed cycle that goes on has fetched, executed the fetched instruction, ticked and handed over. -/
theorem step_eq_next_of_executes (hexecutes : s.Executes) (h : step s = .next t) :
    s.FetchFits ∧ ∃ u, exec (decode s.begun.fetchedWord) s.begun.fetched = .next u ∧ t = u.tick.present := by
  rw [step_of_executes hexecutes] at h
  obtain ⟨hfit, hexec⟩ := executedCycle_eq_next h
  exact ⟨State.fetchInBounds_iff.1 hfit, hexec⟩

theorem eq_of_pauses_of_step (hpause : s.Pauses) (h : step s = .next t) : t = s.begun.presentPaused := by
  simpa [step_of_pauses hpause] using h.symm

/-- Settles O9: the run state after the cycle is the table's, since nothing after step 1 writes it. -/
theorem runStateFollowsTheInputTable : Obligations.RunStateFollowsTheInputTable := by
  intro s t h
  obtain ⟨hrun, -⟩ := step_eq_next_keeps_run_keys h
  refine ⟨(stepCycle_eq_next h).1, fun hq => ?_, fun hq he hr => ?_, fun hq he hr => ?_, fun hq he => ?_⟩
  · rw [hrun, RunState.after_quit hq]
  · rw [hrun, hr, RunState.after_running_of_pauseEdge hq he]
  · rw [hrun, hr, RunState.after_paused_of_pauseEdge hq he]
  · rw [hrun, RunState.after_of_no_edge hq he]

/-- Settles O10: step 1 writes the latch, and no state reached or reported after it has another. -/
theorem latchTakesTheHostKeys : Obligations.LatchTakesTheHostKeys := by
  intro s
  refine ⟨fun t h => (step_eq_next_keeps_run_keys h).2, fun r h => ?_⟩
  obtain hstate | hstate := step_fatal_state h
  all_goals
    rw [hstate]
    rfl

/-- Settles O11: a pausing cycle is step 1 and the paused hand-over. -/
theorem pausedCycleChangesOnlyTheLatch : Obligations.PausedCycleChangesOnlyTheLatch :=
  fun _ hpause => ⟨_, step_of_pauses hpause, rfl, begun_run_of_pauses hpause, fun _ => rfl, fun _ => rfl, rfl, rfl,
    rfl, rfl, rfl, rfl, rfl⟩

/-- Settles O12: the check of R63 comes before anything else the executed cycle does. -/
theorem fetchBeyondMemoryIsFatal : Obligations.FetchBeyondMemoryIsFatal := by
  intro s hexecutes hbeyond
  rw [step_of_executes hexecutes]
  exact if_neg fun hfit => absurd (State.fetchInBounds_iff.1 hfit) (Nat.not_le_of_gt hbeyond)

/-- Settles O13: the instruction leaves the timers, and the tick follows it only where the cycle goes on. -/
theorem timersTickOncePerExecutedCycle : Obligations.TimersTickOncePerExecutedCycle := by
  intro s
  refine ⟨fun hexecutes t h => ?_, fun hpause t h => ?_, fun r h => ?_⟩
  · obtain ⟨-, u, hu, rfl⟩ := step_eq_next_of_executes hexecutes h
    have hkept := restKept_of_exec hu
    have hdelay : u.dt = s.dt := hkept.delay
    have hsound : u.st = s.st := hkept.sound
    rw [State.present_dt, State.present_st, State.tick_dt, State.tick_st, hdelay, hsound]
    exact ⟨tickTimer_toNat s.dt, tickTimer_toNat s.st⟩
  · rw [eq_of_pauses_of_step hpause h]
    exact ⟨rfl, rfl⟩
  · obtain hstate | hstate := step_fatal_state h
    all_goals
      rw [hstate]
      exact ⟨rfl, rfl⟩

/-- Settles O14: the instruction leaves the record, and the hand-over adds to it the framebuffer it leaves too. -/
theorem cyclePresentsItsFramebuffer : Obligations.CyclePresentsItsFramebuffer := by
  intro s t h
  constructor
  · intro hexecutes
    obtain ⟨-, u, hu, rfl⟩ := step_eq_next_of_executes hexecutes h
    exact congrArg (Presented.frame u.fb :: ·) (restKept_of_exec hu).shown
  · intro hpause
    rw [eq_of_pauses_of_step hpause h]
    exact ⟨rfl, rfl⟩

/-- Settles O15: the quit leads to Quit in step 1, and the parameter decides whether the cycle still executes. -/
theorem quitEndsTheRun : Obligations.QuitEndsTheRun := by
  refine ⟨fun s hr hq hc => ?_, fun s t hr hq hc _ h => ?_, fun s => step_eq_halted_iff⟩
  · have hrun : s.begun.run = .quit := RunState.after_quit hq
    exact ⟨(step_of_run_ne_quit hr).trans (afterInput_of_quit_at_once hrun hc), hrun, rfl⟩
  · obtain ⟨hrun, -⟩ := step_eq_next_keeps_run_keys h
    obtain ⟨-, u, hu, rfl⟩ := step_eq_next_of_executes (.inl ⟨hr, hq, hc⟩) h
    exact ⟨hrun.trans (RunState.after_quit hq), (restKept_of_exec hu).diagnostic⟩

/-! ### pc through an executed cycle (R64) -/

theorem fetchedWord_of_holdsAtPc (h : s.HoldsAtPc w) : s.fetchedWord = w := by
  obtain ⟨hhi, hlo⟩ := h
  apply BitVec.eq_of_toNat_eq
  rw [fetchedWord_toNat, hhi, hlo]
  omega

theorem fetched_pc_toNat (hmem : s.cfg.memSize ≤ 65536) (hfit : s.FetchFits) :
    s.fetched.pc.toNat = s.pc.toNat + 2 := by
  have htwo : (2 : Word).toNat = 2 := rfl
  rw [State.fetched_pc, BitVec.toNat_add, htwo]
  omega

theorem pc_eq_of_exec_of_no_transfer (h : exec i s = .next t) (hret : ∀ q, i ≠ .ret q) (hjp : ∀ a, i ≠ .jp a)
    (hcall : ∀ a, i ≠ .call a) : t.pc = s.pc := by
  by_contra hpc
  obtain ⟨q, hi⟩ | ⟨a, hi | hi⟩ := pc_changed_of_exec h hpc
  · exact hret q hi
  · exact hjp a hi
  · exact hcall a hi

theorem pc_of_exec_jp_or_call {a : Addr} (h : exec i s = .next t) (hi : i = .jp a ∨ i = .call a) :
    t.pc = addressOperand a := by
  obtain rfl | rfl := hi
  · cases execEffect_of_exec h with
    | jp => rfl
    | unsupported _ hu => cases hu
  · cases execEffect_of_exec h with
    | call => rfl
    | unsupported _ hu => cases hu

theorem pc_of_exec_ret {q : Nibble} (h : exec (.ret q) s = .next t) : some t.pc = s.stack.getLast? := by
  obtain ⟨xs, w, hs, rfl⟩ := (execRet_eq_next (q := q)).1 h
  simp [hs]

/-- Settles O16: the fetch advances pc, the instruction may write it, and the tick and the hand-over do not. -/
theorem pcAdvancesPastTheWord : Obligations.PcAdvancesPastTheWord := by
  intro s t w hexecutes hmem hw h
  obtain ⟨hfit, u, hu, rfl⟩ := step_eq_next_of_executes hexecutes h
  have hword : s.begun.fetchedWord = w := fetchedWord_of_holdsAtPc hw
  rw [hword] at hu
  refine ⟨fun hret hjp hcall => ?_, fun a hi => ?_, fun q hi => ?_⟩
  · have hpc : u.pc = s.begun.fetched.pc := pc_eq_of_exec_of_no_transfer hu hret hjp hcall
    rw [State.present_pc, State.tick_pc, hpc]
    exact fetched_pc_toNat (s := s.begun) hmem hfit
  · have hpc : u.pc = addressOperand a := pc_of_exec_jp_or_call hu hi
    rw [State.present_pc, State.tick_pc, hpc, addressOperand_toNat]
  · rw [hi] at hu
    have hpc := pc_of_exec_ret hu
    exact hpc

/-- Settles O20: after step 1 nothing is refused, and `halted` is answered in run state Quit alone. -/
theorem stepNeverRefuses : Obligations.StepNeverRefuses := by
  intro s
  cases h : step s with
  | next t => exact .inl ⟨t, rfl⟩
  | fault f =>
    cases f with
    | fatal r => exact .inr (.inl ⟨r, rfl⟩)
    | halted => exact .inr (.inr ⟨step_eq_halted_iff.1 h, rfl⟩)
  | refused q => exact absurd h (step_ne_refused q)

/-! ### The placed word (log 19) -/

theorem executes_of_willFetch (h : s.willFetch = true) : s.Executes := by
  have hr : s.run ≠ .quit := fun hr => by simp [State.willFetch, hr] at h
  cases hq : s.nextInput.quit with
  | true =>
    have hc : s.cfg.quitCompletesCycle = true := by
      cases hrun : s.run <;> simp_all [State.willFetch, RunState.after_quit]
    exact .inl ⟨hr, hq, hc⟩
  | false =>
    refine .inr ⟨hq, ?_⟩
    cases he : s.nextInput.pauseEdge with
    | false =>
      have hrun : s.run = .running := by
        cases hrun : s.run <;> simp_all [State.willFetch, RunState.after_of_no_edge hq he]
      exact .inl ⟨hrun, rfl⟩
    | true =>
      have hrun : s.run = .paused := by
        cases hrun : s.run <;> simp_all [State.willFetch, RunState.after_running_of_pauseEdge hq he]
      exact .inr ⟨hrun, rfl⟩

theorem executes_madeToFetch : s.madeToFetch.Executes := by
  unfold State.madeToFetch
  split
  · exact executes_of_willFetch ‹_›
  · exact .inr ⟨rfl, .inl ⟨rfl, rfl⟩⟩

@[simp] theorem State.madeToFetch_cfg : s.madeToFetch.cfg = s.cfg := by
  unfold State.madeToFetch
  split <;> rfl

@[simp] theorem State.madeToFetch_mem : s.madeToFetch.mem = s.mem := by
  unfold State.madeToFetch
  split <;> rfl

theorem executes_madeFetchable (h : s.Executes) : s.madeFetchable.Executes := by
  unfold State.madeFetchable
  split <;> exact h

@[simp] theorem State.madeFetchable_mem : s.madeFetchable.mem = s.mem := by
  unfold State.madeFetchable
  split <;> rfl

/-- A word fits at `PROGRAM_BASE` in every legal configuration (R6). -/
theorem fetchFits_madeFetchable (hc : s.cfg.wf = true) : s.madeFetchable.FetchFits := by
  obtain ⟨-, hbase, -⟩ := Config.wf_iff.1 hc
  unfold State.madeFetchable
  split
  · exact State.fetchInBounds_iff.1 ‹_›
  · have hpc : (BitVec.ofNat 16 s.cfg.programBase).toNat ≤ s.cfg.programBase := Nat.mod_le ..
    change (BitVec.ofNat 16 s.cfg.programBase).toNat + 2 ≤ s.cfg.memSize - 1
    omega

/-- The low byte is written last, above the high byte, which it leaves. -/
theorem holdsAtPc_placeWord (hm : Memory.rising none s.mem = true) : (s.placeWord s.pc.toNat w).HoldsAtPc w := by
  have hhi : (s.placeWord s.pc.toNat w).memRead s.pc.toNat = highByte w :=
    (Memory.read_write_of_ne (Nat.ne_of_lt s.pc.toNat.lt_succ_self)).trans (Memory.read_write_same hm)
  have hlo : (s.placeWord s.pc.toNat w).memRead (s.pc.toNat + 1) = lowByte w :=
    Memory.read_write_same (Memory.rising_write hm)
  exact ⟨(congrArg BitVec.toNat hhi).trans (highByte_toNat w), (congrArg BitVec.toNat hlo).trans (lowByte_toNat w)⟩

theorem tableWord_toNat_self (w : Word) : tableWord 16 w.toNat = w := by
  rw [tableWord, Nat.mod_eq_of_lt w.isLt, BitVec.ofNat_toNat, BitVec.setWidth_eq]

/-- Settles O32: the three parts of the placement give the three claims, and a later part keeps an earlier one's. -/
theorem placedWordIsFetchedNext : Obligations.PlacedWordIsFetchedNext := by
  intro s w hc hm
  have hplaced : s.withFetchWord 16 w.toNat =
      s.madeToFetch.madeFetchable.placeWord s.madeToFetch.madeFetchable.pc.toNat w := by
    rw [State.withFetchWord, tableWord_toNat_self, State.placeNextWord]
  have hexecutes : s.madeToFetch.madeFetchable.Executes := executes_madeFetchable executes_madeToFetch
  have hfit : s.madeToFetch.madeFetchable.FetchFits := fetchFits_madeFetchable (by rwa [State.madeToFetch_cfg])
  rw [hplaced]
  exact ⟨hexecutes, hfit, holdsAtPc_placeWord (by simpa using (Memory.wf_iff.1 hm).1)⟩

/-! ### A run as the steps over its inputs (R73, R74) -/

theorem exec_eq_next_iff : exec i s = .next t ↔ ExecEffect s i t := by
  constructor
  · exact execEffect_of_exec
  · intro h
    cases h with
    | ret q xs w hs => exact (execRet_eq_next (q := q)).2 ⟨xs, w, hs, rfl⟩
    | call nnn hd => exact execCall_eq_next.2 ⟨hd, rfl⟩
    | drw x y n hb => exact execDrw_eq_next.2 ⟨hb, rfl⟩
    | unsupported i hu hp =>
      cases i with
      | cls | ret | jp | call | ldV | addV | ldI | drw => cases hu
      | _ => exact unsupported_eq_next.2 ⟨hp, rfl⟩
    | _ => rfl

section Waiting

variable (xs : List HostInput)

theorem drawSprite_withInputs (x y : RegIdx) (n : Nibble) :
    drawSprite { s with inputs := xs } x y n = drawSprite s x y n :=
  Blit.rows_congr (s := s) (s' := { s with inputs := xs }) rfl rfl (fun _ => rfl) _

/-- No instruction reads or writes the waiting inputs. -/
theorem exec_withInputs (h : exec i s = .next t) :
    exec i { s with inputs := xs } = .next { t with inputs := xs } := by
  rw [exec_eq_next_iff]
  cases execEffect_of_exec h with
  | cls q => exact .cls q
  | ret q ys w hs => exact .ret q ys w hs
  | jp nnn => exact .jp nnn
  | call nnn hd => exact .call nnn hd
  | ldV x nn => exact .ldV x nn
  | addV x nn => exact .addV x nn
  | ldI nnn => exact .ldI nnn
  | drw x y n hb =>
    rw [← drawSprite_withInputs xs]
    exact .drw x y n hb
  | unsupported i hu hp => exact .unsupported i hu hp

theorem afterInput_withInputs (h : s.afterInput = .next t) :
    State.afterInput { s with inputs := xs } = .next { t with inputs := xs } := by
  obtain ⟨hr, rfl⟩ | ⟨hr, hc, rfl⟩ | ⟨hr, hc, hfit, u, hu, rfl⟩ := afterInput_eq_next h
  · exact afterInput_of_paused hr
  · exact afterInput_of_quit_at_once hr hc
  · rw [afterInput_of_executing (s := { s with inputs := xs }) hr hc]
    exact executedCycle_of_exec (s := { s with inputs := xs }) hfit (exec_withInputs xs hu)

/-- A step with `inp` the oldest waiting input is the cycle that is given `inp`, and the others stay waiting. -/
theorem step_withInputs_cons (hr : s.run ≠ .quit) (h : cycle s inp = .next t) :
    step { s with inputs := inp :: xs } = .next { t with inputs := xs } :=
  (if_neg hr).trans (afterInput_withInputs xs h)

end Waiting

theorem cycle_eq_next_run (h : cycle s inp = .next t) : t.run = s.run.after inp :=
  (afterInput_keeps_run_keys h).1

theorem cycle_ne_halted : cycle s inp ≠ .fault .halted := afterInput_ne_halted

theorem core_run_succ {k : Nat} (h : step s = .next t) : Host.Core.run core (k + 1) s = Host.Core.run core k t := by
  have hcore : core.step s = .next t := h
  simp only [Host.Core.run, hcore]

/-- What the first cycle of a run that has not ended has done. -/
theorem runCycles_cons_eq_unfinished {rest : List HostInput} (h : runCycles s (inp :: rest) = .unfinished t) :
    ∃ u, cycle s inp = .next u ∧ u.run ≠ .quit ∧ runCycles u rest = .unfinished t := by
  simp only [runCycles] at h
  split at h
  · next u hu =>
    split at h
    · cases h
    · next hq => exact ⟨u, hu, hq, h⟩
  all_goals cases h

/-- What the first cycle of a run that ends halted has done: it entered Quit itself, or the run went on. -/
theorem runCycles_cons_eq_halted {rest : List HostInput} (h : runCycles s (inp :: rest) = .halted t) :
    ∃ u, cycle s inp = .next u ∧
      ((u.run = .quit ∧ t = u) ∨ (u.run ≠ .quit ∧ runCycles u rest = .halted t)) := by
  simp only [runCycles] at h
  split at h
  · next u hu =>
    split at h
    · next hq => exact ⟨u, hu, .inl ⟨hq, by simpa using h.symm⟩⟩
    · next hq => exact ⟨u, hu, .inr ⟨hq, h⟩⟩
  · cases h
  · next hhalted => exact absurd hhalted cycle_ne_halted
  · cases h

/-- Settles O52, by induction on the inputs: the first step is the first cycle, and the other inputs stay waiting. -/
theorem runOverInputsIsTheStepsOverTheQueue : Obligations.RunOverInputsIsTheStepsOverTheQueue := by
  intro inps
  induction inps with
  | nil =>
    intro s t _ h
    cases h
    rfl
  | cons inp rest ih =>
    intro s t hr h
    obtain ⟨u, hu, hnotQuit, hrest⟩ := runCycles_cons_eq_unfinished h
    rw [List.length_cons, core_run_succ (step_withInputs_cons rest hr hu)]
    exact ih u t hnotQuit hrest

/-- A run that ends halted has entered Quit, at an input that is a quit. -/
theorem quit_of_runCycles_eq_halted {inps : List HostInput} (hr : s.run ≠ .quit)
    (h : runCycles s inps = .halted t) : t.run = .quit ∧ ∃ inp ∈ inps, inp.quit = true := by
  induction inps generalizing s with
  | nil => cases h
  | cons inp rest ih =>
    obtain ⟨u, hu, ⟨hquit, rfl⟩ | ⟨hnotQuit, hrest⟩⟩ := runCycles_cons_eq_halted h
    · have hafter : s.run.after inp = .quit := (cycle_eq_next_run hu).symm.trans hquit
      exact ⟨hquit, inp, List.mem_cons_self, RunState.quit_of_after_eq_quit hr hafter⟩
    · obtain ⟨hrun, inp', hmem, hq⟩ := ih hnotQuit hrest
      exact ⟨hrun, inp', List.mem_cons_of_mem inp hmem, hq⟩

/-- Settles O53: the run state leaves Running and Paused for Quit at a quit input alone. -/
theorem runSucceedsOnlyOnAHostQuit : Obligations.RunSucceedsOnlyOnAHostQuit := by
  intro inps s t hr h
  obtain ⟨hrun, hinput⟩ := quit_of_runCycles_eq_halted hr h
  exact ⟨hrun, hinput, by rw [h, RunResult.exit]⟩

/-! ### The whole executed cycle (R60) -/

theorem tickTimer_eq (b : Byte) : tickTimer b = if b = 0 then 0 else b - 1 := by
  unfold tickTimer
  split_ifs with hpos hzero hzero
  · simp [hzero] at hpos
  · rfl
  · exact hzero
  · exact absurd (BitVec.eq_of_toNat_eq (Nat.eq_zero_of_not_pos hpos)) hzero

theorem tick_present_eq : s.tick.present =
    { s with
      dt := if s.dt = 0 then 0 else s.dt - 1
      st := if s.st = 0 then 0 else s.st - 1
      output := .frame s.fb :: s.output } := by
  rw [← tickTimer_eq, ← tickTimer_eq]
  rfl

theorem fetched_of_holdsAtPc (h : s.HoldsAtPc w) :
    s.fetched = { s with pc := s.pc + 2, current := some (fields w) } := by
  rw [State.fetched, fetchedWord_of_holdsAtPc h]

/-- Settles O7: the word at pc is the one fetched, and what follows `exec` is the tick and the hand-over. -/
theorem stepRunsTheFetchedInstruction : Obligations.StepRunsTheFetchedInstruction := by
  intro s w hexecutes hfit hw
  have hbegun : s.begun.HoldsAtPc w := hw
  have hfetched : s.begun.fetched = { s.begun with pc := s.pc + 2, current := some (fields w) } :=
    fetched_of_holdsAtPc hbegun
  rw [step_of_executes_of_fetchFits hexecutes hfit, fetchedWord_of_holdsAtPc hbegun, hfetched]
  cases exec (decode w) { s.begun with pc := s.pc + 2, current := some (fields w) } with
  | next u => exact congrArg Host.Outcome.next tick_present_eq
  | fault f => rfl
  | refused q => rfl

end Sys2Proof.Machine
end

section
/-! PROOFS. The family 41_flow.md: RET, JP and CALL alone and through a whole cycle, and nested calls with their
returns as pushes and pops on one list of resume points. -/

namespace Sys2Proof

/-! ### R48: the operand of an address-form word is its low twelve bits -/

theorem fields_nnn_eq_ofNat (w : Word) : (fields w).nnn = BitVec.ofNat 12 (w.toNat % 4096) := by
  apply BitVec.eq_of_toNat_eq
  rw [fields_nnn_toNat, BitVec.toNat_ofNat]
  omega

theorem decode_eq_jp_of_class {w : Word} (h : w &&& 0xF000 = 0x1000) :
    decode w = .jp (BitVec.ofNat 12 (w.toNat % 4096)) := by
  rw [← fields_nnn_eq_ofNat]
  exact (and_classMask_iff_decode_eq (i := .jp (fields w).nnn) 0x1 rfl addressForm_eq_iff).1 h

theorem decode_eq_call_of_class {w : Word} (h : w &&& 0xF000 = 0x2000) :
    decode w = .call (BitVec.ofNat 12 (w.toNat % 4096)) := by
  rw [← fields_nnn_eq_ofNat]
  exact (and_classMask_iff_decode_eq (i := .call (fields w).nnn) 0x2 rfl addressForm_eq_iff).1 h

namespace Machine

variable {s t u : State} {w : Word} {q : Nibble} {nnn : Addr}

/-! ### The rules of R80 to R82 -/

theorem exec_ret {xs : List Word} (hs : s.stack = xs ++ [w]) :
    exec (.ret q) s = .next ((s.setStack xs).setPc w) :=
  exec_eq_next_iff.2 (.ret q xs w hs)

theorem exec_jp : exec (.jp nnn) s = .next (s.setPc (addressOperand nnn)) :=
  exec_eq_next_iff.2 (.jp nnn)

theorem exec_call (hd : s.stack.length ≠ s.cfg.stackCap) :
    exec (.call nnn) s = .next ((s.setStack (s.stack ++ [s.pc])).setPc (addressOperand nnn)) :=
  exec_eq_next_iff.2 (.call nnn hd)

theorem exec_call_at_capacity (hd : s.stack.length = s.cfg.stackCap) :
    exec (.call nnn) s = raiseInExecute .stackOverflow s :=
  execCall_eq_fault.2 ⟨hd, rfl⟩

/-- Settles O33, by the rule of RET and the frame of every instruction. -/
theorem returnPopsTheTop : Obligations.ReturnPopsTheTop := by
  intro s q xs w hs
  exact ⟨_, exec_ret hs, rfl, rfl, fun _ => rfl, rfl, rfl, restKept_of_exec (exec_ret (q := q) hs)⟩

/-- Settles O36: below capacity the push and the jump are the whole effect, and at capacity the report holds the
state that CALL found. -/
theorem callPushesPcAndJumps : Obligations.CallPushesPcAndJumps := by
  refine ⟨fun w => decode_eq_call_of_class, fun s nnn hd => ?_, fun s nnn hd => ?_⟩
  · exact ⟨_, exec_call hd, rfl, addressOperand_toNat nnn, fun _ => rfl, rfl, rfl,
      restKept_of_exec (exec_call (nnn := nnn) hd)⟩
  · exact ⟨_, exec_call_at_capacity hd, rfl, rfl⟩

/-- Settles O38: what CALL pushed is the top of the later state's stack, so RET takes it. -/
theorem returnResumesAfterItsCall : Obligations.ReturnResumesAfterItsCall := by
  intro s t m nnn q hcall hm
  obtain ⟨-, rfl⟩ := execCall_eq_next.1 hcall
  exact ⟨_, exec_ret hm, rfl, rfl⟩

/-! ### Through a whole cycle -/

theorem step_of_exec (hexecutes : s.Executes) (hfit : s.FetchFits) (hw : s.HoldsAtPc w)
    (hu : exec (decode w) s.begun.fetched = .next u) : step s = .next u.tick.present := by
  have hword : s.begun.fetchedWord = w := fetchedWord_of_holdsAtPc hw
  rw [step_of_executes_of_fetchFits hexecutes hfit, hword, hu, finishCycle]

/-- Settles O17: what CALL pushes is the pc that the fetch has advanced. -/
theorem callCyclePushesTheNextAddress : Obligations.CallCyclePushesTheNextAddress := by
  intro s w nnn hexecutes hmem hfit hw hcall hd
  have hu := exec_call (s := s.begun.fetched) (nnn := nnn) hd
  rw [← hcall] at hu
  exact ⟨_, step_of_exec hexecutes hfit hw hu, addressOperand_toNat nnn, s.begun.fetched.pc, rfl,
    fetched_pc_toNat (s := s.begun) hmem hfit⟩

theorem pc_of_step_jp (hexecutes : s.Executes) (hw : s.HoldsAtPc w) (hjp : decode w = .jp nnn)
    (h : step s = .next t) : t.pc = addressOperand nnn := by
  obtain ⟨-, u, hu, rfl⟩ := step_eq_next_of_executes hexecutes h
  have hword : s.begun.fetchedWord = w := fetchedWord_of_holdsAtPc hw
  rw [hword] at hu
  have hpc : u.pc = addressOperand nnn := pc_of_exec_jp_or_call hu (.inl hjp)
  exact hpc

/-- Settles O35: JP does not check its target (R81), so it is the next fetch that refuses it (D4). -/
theorem jumpSetsPc : Obligations.JumpSetsPc := by
  refine ⟨fun w => decode_eq_jp_of_class, fun s nnn => ?_, fun s t w nnn hexecutes hw hjp hbeyond h hnext => ?_⟩
  · exact ⟨_, exec_jp, addressOperand_toNat nnn, rfl, fun _ => rfl, rfl, rfl, restKept_of_exec exec_jp⟩
  · have hpc : t.pc.toNat = nnn.toNat := by rw [pc_of_step_jp hexecutes hw hjp h, addressOperand_toNat]
    obtain ⟨-, hcfg⟩ := stepNeverWritesMemory s t h
    rw [← hpc, ← hcfg] at hbeyond
    exact ⟨_, fetchBeyondMemoryIsFatal t hnext hbeyond, rfl, hpc⟩

/-! ### R83: nested calls and their returns -/

/-- Where each active routine goes on, the outermost first: the return addresses of the call stack, then pc.
CALL adds its target at the end and RET drops the last entry. -/
def State.resumePoints (s : State) : List Word := s.stack ++ [s.pc]

theorem State.resumePoints_eq_concat_iff {xs : List Word} :
    s.resumePoints = xs ++ [w] ↔ s.stack = xs ∧ s.pc = w := by
  simp [State.resumePoints]

theorem execAll_cons {i : Instr} {is : List Instr} (h : exec i s = .next t) :
    execAll (i :: is) s = execAll is t := by
  rw [execAll, h]

/-- Calls that fit the capacity go on, and the last target is pc. -/
theorem execAll_calls {ts : List Addr} (hroom : s.stack.length + ts.length ≤ s.cfg.stackCap) :
    ∃ t, execAll (ts.map .call) s = .next t ∧ t.resumePoints = s.resumePoints ++ ts.map addressOperand := by
  induction ts generalizing s with
  | nil => exact ⟨s, rfl, (List.append_nil _).symm⟩
  | cons nnn ts ih =>
    rw [List.length_cons] at hroom
    have hcall := exec_call (s := s) (nnn := nnn) (by omega)
    have hleft : (s.stack ++ [s.pc]).length + ts.length ≤ s.cfg.stackCap := by
      rw [List.length_append, List.length_singleton]
      omega
    obtain ⟨t, ht, hpoints⟩ := ih (s := (s.setStack (s.stack ++ [s.pc])).setPc (addressOperand nnn)) hleft
    refine ⟨t, by rw [List.map_cons, execAll_cons hcall, ht], ?_⟩
    calc t.resumePoints = s.resumePoints ++ [addressOperand nnn] ++ ts.map addressOperand := hpoints
      _ = s.resumePoints ++ (nnn :: ts).map addressOperand := (List.append_cons ..).symm

/-- As many returns as the stack has entries go on, each to the last resume point but one. -/
theorem execAll_returns (q : Nibble) {k : Nat} (hk : k ≤ s.stack.length) :
    ∃ u, execAll (List.replicate k (.ret q)) s = .next u ∧ u.resumePoints = s.resumePoints.rdrop k := by
  induction k generalizing s with
  | zero => exact ⟨s, rfl, (List.rdrop_zero _).symm⟩
  | succ k ih =>
    have hne : s.stack ≠ [] := List.ne_nil_of_length_pos (Nat.zero_lt_of_lt hk)
    obtain ⟨xs, w, hs⟩ : ∃ xs w, s.stack = xs ++ [w] := ⟨_, _, (List.dropLast_concat_getLast hne).symm⟩
    have hleft : k ≤ xs.length := by simpa [hs] using hk
    obtain ⟨u, hu, hpoints⟩ := ih (s := (s.setStack xs).setPc w) hleft
    refine ⟨u, by rw [List.replicate_succ, execAll_cons (exec_ret hs), hu], ?_⟩
    calc u.resumePoints = (xs ++ [w]).rdrop k := hpoints
      _ = s.stack.rdrop k := by rw [hs]
      _ = s.resumePoints.rdrop (k + 1) := (List.rdrop_concat_succ ..).symm

/-- The entry that the (k+1)-th return finds on top, and the stack below it. -/
theorem State.resumePoints_rdrop_succ {k : Nat} (hk : k < s.stack.length) :
    s.resumePoints.rdrop (k + 1) =
      s.stack.take (s.stack.length - (k + 1)) ++ [s.stack[s.stack.length - (k + 1)]] := by
  have hlen : s.stack.length - k = s.stack.length - (k + 1) + 1 := by omega
  rw [List.take_concat_get', ← hlen, State.resumePoints, List.rdrop_concat_succ, List.rdrop]

/-- Settles O39: after the calls the resume points are those before them and the targets, and each return drops
the last one. -/
theorem nestedCallsReturnInLifoOrder : Obligations.NestedCallsReturnInLifoOrder := by
  intro s ts q hroom
  obtain ⟨t, ht, hpoints⟩ := execAll_calls hroom
  have hlen : t.stack.length = s.stack.length + ts.length := by
    have h := congrArg List.length hpoints
    simp only [State.resumePoints, List.length_append, List.length_singleton, List.length_map] at h
    omega
  refine ⟨t, ht, hlen, fun k hk => ?_, ?_⟩
  · have hdepth : k < t.stack.length := by omega
    obtain ⟨u, hu, hleft⟩ := execAll_returns (s := t) q hdepth
    rw [State.resumePoints_rdrop_succ hdepth, State.resumePoints_eq_concat_iff] at hleft
    obtain ⟨hstack, hpc⟩ := hleft
    exact ⟨u, hu, by rw [hpc, List.getElem?_eq_getElem], hstack⟩
  · obtain ⟨v, hv, hleft⟩ := execAll_returns (s := t) q (k := ts.length) (by omega)
    have hbefore : v.resumePoints = s.resumePoints := by
      rw [hleft, hpoints, List.rdrop, List.length_append, List.length_map, Nat.add_sub_cancel, List.take_left]
    obtain ⟨hstack, hpc⟩ := State.resumePoints_eq_concat_iff.1 hbefore
    exact ⟨v, hv, hstack, fun _ => hpc⟩

end Machine

end Sys2Proof
end

section
/-! PROOFS. The family 42_register.md: LD Vx and ADD Vx write the one register their word names, LD I the index. -/

namespace Sys2Proof

variable {w : Word}

/-! ### R48: the operands of a word in these forms -/

theorem regOf_val (f : Nibble) : (regOf f).val = f.toNat := rfl

theorem fields_nn_eq_ofNat (w : Word) : (fields w).nn = BitVec.ofNat 8 (w.toNat % 256) := by
  apply BitVec.eq_of_toNat_eq
  rw [fields_nn_toNat, BitVec.toNat_ofNat]
  omega

/-- A register-immediate row whose encoding, with the word's own operands, fixes the class alone. -/
theorem decode_eq_immediate_of_class (c : Nibble) (row : RegIdx → Byte → Instr)
    (hwf : ∀ x nn, (row x nn).wf = true) (hrow : ∀ x nn, encode (row x nn) = immediateForm c (nibbleOf x) nn)
    (h : w &&& 0xF000 = addressForm c 0) :
    ∃ x : RegIdx, x.val = w.toNat / 256 % 16 ∧ decode w = row x (BitVec.ofNat 8 (w.toNat % 256)) := by
  have hform : encode (row (regOf (fields w).x) (fields w).nn) = w ↔ (fields w).cls = c := by
    rw [hrow, nibbleOf_regOf, immediateForm_operands_eq_iff]
  rw [← fields_nn_eq_ofNat, ← fields_x_toNat]
  exact ⟨regOf (fields w).x, regOf_val _, (and_classMask_iff_decode_eq c (hwf _ _) hform).1 h⟩

theorem decode_eq_ldV_of_class (h : w &&& 0xF000 = 0x6000) :
    ∃ x : RegIdx, x.val = w.toNat / 256 % 16 ∧ decode w = .ldV x (BitVec.ofNat 8 (w.toNat % 256)) :=
  decode_eq_immediate_of_class 0x6 .ldV (fun _ _ => rfl) (fun _ _ => rfl) h

theorem decode_eq_addV_of_class (h : w &&& 0xF000 = 0x7000) :
    ∃ x : RegIdx, x.val = w.toNat / 256 % 16 ∧ decode w = .addV x (BitVec.ofNat 8 (w.toNat % 256)) :=
  decode_eq_immediate_of_class 0x7 .addV (fun _ _ => rfl) (fun _ _ => rfl) h

theorem decode_eq_ldI_of_class (h : w &&& 0xF000 = 0xA000) :
    decode w = .ldI (BitVec.ofNat 12 (w.toNat % 4096)) := by
  rw [← fields_nnn_eq_ofNat]
  exact (and_classMask_iff_decode_eq (i := .ldI (fields w).nnn) 0xA rfl addressForm_eq_iff).1 h

namespace Machine

variable {s : State} {x r : RegIdx} {b nn : Byte} {nnn : Addr}

/-! ### R11: a register write reaches the register it names and no other -/

theorem State.reg_setReg_self : (s.setReg x b).reg x = b := by
  rw [State.reg_setReg, if_pos rfl]

theorem State.reg_setReg_of_ne (h : r ≠ x) : (s.setReg x b).reg r = s.reg r := by
  rw [State.reg_setReg, if_neg h]

/-! ### The rules of R90 to R92 -/

theorem exec_ldV : exec (.ldV x nn) s = .next (s.setReg x nn) :=
  exec_eq_next_iff.2 (.ldV x nn)

theorem exec_addV : exec (.addV x nn) s = .next (s.setReg x (s.reg x + nn)) :=
  exec_eq_next_iff.2 (.addV x nn)

theorem exec_ldI : exec (.ldI nnn) s = .next (s.setIndex (addressOperand nnn)) :=
  exec_eq_next_iff.2 (.ldI nnn)

/-- Settles O41: the sum of two bytes wraps at 256, and the write reaches register x alone. -/
theorem addImmediateWrapsWithoutCarry : Obligations.AddImmediateWrapsWithoutCarry := by
  refine ⟨fun w => decode_eq_addV_of_class, fun s x nn => ⟨_, exec_addV, ?_, fun r => State.reg_setReg_of_ne,
    rfl, rfl, rfl, rfl, restKept_of_exec exec_addV⟩⟩
  rw [State.reg_setReg_self]
  exact BitVec.toNat_add (s.reg x) nn

/-- Settles O40: the write reaches register x alone, which may be VF. -/
theorem loadImmediateWritesItsRegister : Obligations.LoadImmediateWritesItsRegister :=
  ⟨fun _ => decode_eq_ldV_of_class, fun _ _ _ => ⟨_, exec_ldV, State.reg_setReg_self,
    fun _ => State.reg_setReg_of_ne, rfl, rfl, rfl, rfl, restKept_of_exec exec_ldV⟩⟩

/-- Settles O42: zero extension keeps the address's value, and no register is written. -/
theorem loadIndexWritesTheIndex : Obligations.LoadIndexWritesTheIndex :=
  ⟨fun _ => decode_eq_ldI_of_class, fun _ nnn => ⟨_, exec_ldI, addressOperand_toNat nnn,
    fun _ => State.reg_setIndex .., rfl, rfl, rfl, restKept_of_exec exec_ldI⟩⟩

end Machine

end Sys2Proof
end

section
/-! PROOFS. The family 43_display.md: CLS blanks the screen, and DRW XORs the pixels that its sprite covers, so a
second draw of the same sprite restores them. -/

namespace Sys2Proof.Machine

variable {s t : State} {x y r : RegIdx} {n q : Nibble} {col row : Nat}

/-! ### R100: CLS -/

theorem exec_cls : exec (.cls q) s = .next (s.setFb (Framebuffer.blank s.cfg.fbW s.cfg.fbH)) :=
  exec_eq_next_iff.2 (.cls q)

/-- Settles O43: the framebuffer written is the blank one. -/
theorem clearBlanksEveryPixel : Obligations.ClearBlanksEveryPixel :=
  fun _ q => ⟨_, exec_cls, fun _ _ => Framebuffer.get_blank, Framebuffer.sized_blank, fun _ => rfl, rfl, rfl, rfl,
    restKept_of_exec (exec_cls (q := q))⟩

/-! ### R105: the check before the draw -/

theorem spriteBeyondMemory_iff : spriteBeyondMemory s (rowsOnScreen s y n) = true ↔
    0 < spriteRows s y n ∧ s.i.toNat + spriteRows s y n - 1 > s.cfg.memSize - 1 :=
  decide_eq_true_iff

/-- Settles O45: the check comes before the blit, so the report holds the state that DRW found. -/
theorem drawBeyondMemoryIsFatal : Obligations.DrawBeyondMemoryIsFatal := by
  intro s x y n
  rw [← spriteBeyondMemory_iff]
  refine ⟨⟨fun hb => ⟨_, execDrw_eq_fault.2 ⟨hb, rfl⟩⟩, fun ⟨_, h⟩ => (execDrw_eq_fault.1 h).1⟩, fun r h => ?_⟩
  obtain ⟨-, hr⟩ := execDrw_eq_fault.1 h
  cases hr
  exact ⟨rfl, rfl⟩

/-! ### R101 to R104: what a draw that goes on leaves -/

theorem exec_drw (hb : spriteBeyondMemory s (rowsOnScreen s y n) = false) : exec (.drw x y n) s =
    .next ((s.setFb (drawSprite s x y n).fb).setCollision (drawSprite s x y n).collision) :=
  exec_eq_next_iff.2 (.drw x y n hb)

theorem reg_flag_of_exec_drw (h : exec (.drw x y n) s = .next t) :
    t.reg 0xF = flagValue (drawSprite s x y n).collision := by
  obtain ⟨-, rfl⟩ := execDrw_eq_next.1 h
  exact State.reg_setReg_self

theorem reg_of_exec_drw_of_ne (h : exec (.drw x y n) s = .next t) (hr : r ≠ 0xF) : t.reg r = s.reg r := by
  obtain ⟨-, rfl⟩ := execDrw_eq_next.1 h
  exact State.reg_setReg_of_ne hr

/-- The rows drawn end at the bottom of the screen or above it, and the columns at its right edge (R104). -/
theorem on_screen_of_spriteCovers (hw : 1 ≤ s.cfg.fbW) (hh : 1 ≤ s.cfg.fbH)
    (h : spriteCovers s x y n col row = true) : col < s.cfg.fbW ∧ row < s.cfg.fbH := by
  simp only [spriteCovers, Bool.and_eq_true, decide_eq_true_eq] at h
  obtain ⟨⟨⟨-, hrow⟩, -, hcol⟩, -⟩ := h
  have hrows : spriteRows s y n ≤ s.cfg.fbH - (s.reg y).toNat % s.cfg.fbH := Nat.min_le_right ..
  have horigin := Nat.mod_lt (s.reg y).toNat hh
  omega

section Drawn

variable (hw : 1 ≤ s.cfg.fbW) (hh : 1 ≤ s.cfg.fbH) (hs : s.fb.sized s.cfg.fbW s.cfg.fbH = true)
  (h : exec (.drw x y n) s = .next t)

include hw hh hs h

theorem fb_sized_of_exec_drw : t.fb.sized s.cfg.fbW s.cfg.fbH = true := by
  obtain ⟨-, rfl⟩ := execDrw_eq_next.1 h
  obtain ⟨hsized, -⟩ := Blit.drawSprite_spec x y n hw hh hs
  exact hsized

theorem pixel_of_exec_drw (col row : Nat) :
    t.pixel col row = (s.pixel col row ^^ spriteCovers s x y n col row) := by
  obtain ⟨-, rfl⟩ := execDrw_eq_next.1 h
  obtain ⟨-, hpixel, -⟩ := Blit.drawSprite_spec x y n hw hh hs
  exact hpixel col row

theorem reg_flag_eq_one_of_collision (hc : ∃ col row, col < s.cfg.fbW ∧ row < s.cfg.fbH ∧
    spriteCovers s x y n col row = true ∧ s.pixel col row = true) : t.reg 0xF = 1 := by
  obtain ⟨-, -, hcollision⟩ := Blit.drawSprite_spec x y n hw hh hs
  obtain ⟨col, row, -, -, hlit⟩ := hc
  rw [reg_flag_of_exec_drw h, hcollision.2 ⟨col, row, hlit⟩]
  rfl

/-- A collision is at a covered pixel, and those all lie on screen. -/
theorem reg_flag_eq_zero_of_no_collision (hc : ∀ col row, col < s.cfg.fbW → row < s.cfg.fbH →
    spriteCovers s x y n col row = true → s.pixel col row = false) : t.reg 0xF = 0 := by
  obtain ⟨-, -, hcollision⟩ := Blit.drawSprite_spec x y n hw hh hs
  have hnone : (drawSprite s x y n).collision = false := by
    rw [Bool.eq_false_iff, Ne, hcollision]
    rintro ⟨col, row, hcov, hlit⟩
    obtain ⟨hcol, hrow⟩ := on_screen_of_spriteCovers hw hh hcov
    exact absurd hlit (by simp [hc col row hcol hrow hcov])
  rw [reg_flag_of_exec_drw h, hnone]
  rfl

end Drawn

/-- Settles O44: the check passes, and the two loops leave what `spriteCovers` describes by where a pixel lies. -/
theorem drawXorsTheCoveredPixels : Obligations.DrawXorsTheCoveredPixels := by
  intro s x y n hw hh hs hrows
  have hb : spriteBeyondMemory s (rowsOnScreen s y n) = false := by
    rw [Bool.eq_false_iff, Ne, spriteBeyondMemory_iff]
    omega
  have h := exec_drw (x := x) hb
  exact ⟨_, h, fb_sized_of_exec_drw hw hh hs h, fun col row _ _ => pixel_of_exec_drw hw hh hs h col row,
    reg_flag_eq_one_of_collision hw hh hs h, reg_flag_eq_zero_of_no_collision hw hh hs h,
    fun _ => reg_of_exec_drw_of_ne h, rfl, rfl, rfl, restKept_of_exec h⟩

/-! ### R106: the same sprite a second time -/

/-- `t` has all that DRW reads its sprite from as `s` has it: the sizes, the origin registers, the index and
memory. -/
structure SpriteKept (s t : State) (x y : RegIdx) : Prop where
  parameters : t.cfg = s.cfg
  column : t.reg x = s.reg x
  line : t.reg y = s.reg y
  index : t.i = s.i
  memory : ∀ a, t.memRead a = s.memRead a

theorem SpriteKept.spriteRows_eq (hk : SpriteKept s t x y) : spriteRows t y n = spriteRows s y n := by
  rw [spriteRows, spriteRows, hk.parameters, hk.line]

theorem SpriteKept.spriteCovers_eq (hk : SpriteKept s t x y) :
    spriteCovers t x y n col row = spriteCovers s x y n col row := by
  rw [Bool.eq_iff_iff]
  simp only [spriteCovers, Bool.and_eq_true, decide_eq_true_eq, hk.spriteRows_eq, hk.parameters, hk.column,
    hk.line, hk.index, hk.memory]

theorem SpriteKept.spriteBeyondMemory_eq (hk : SpriteKept s t x y) :
    spriteBeyondMemory t (rowsOnScreen t y n) = spriteBeyondMemory s (rowsOnScreen s y n) := by
  rw [Bool.eq_iff_iff, spriteBeyondMemory_iff, spriteBeyondMemory_iff, hk.spriteRows_eq, hk.parameters, hk.index]

/-- DRW writes no register but VF, so where VF holds neither coordinate the sprite is the same after it. -/
theorem spriteKept_of_exec_drw (hx : x ≠ 0xF) (hy : y ≠ 0xF) (h : exec (.drw x y n) s = .next t) :
    SpriteKept s t x y where
  parameters := (restKept_of_exec h).parameters
  column := reg_of_exec_drw_of_ne h hx
  line := reg_of_exec_drw_of_ne h hy
  index := by obtain ⟨-, rfl⟩ := execDrw_eq_next.1 h; rfl
  memory := (restKept_of_exec h).memory

/-- Settles O46: the second draw covers the same pixels, each of which the first draw inverted. -/
theorem drawingTwiceRestoresThePixels : Obligations.DrawingTwiceRestoresThePixels := by
  intro s t x y n hw hh hs hx hy h
  have hk := spriteKept_of_exec_drw hx hy h
  have hsized := fb_sized_of_exec_drw hw hh hs h
  have hpixel := pixel_of_exec_drw hw hh hs h
  obtain ⟨hb, -⟩ := execDrw_eq_next.1 h
  have hagain := exec_drw (x := x) (hk.spriteBeyondMemory_eq.trans hb)
  rw [← hk.parameters] at hw hh hsized ⊢
  refine ⟨_, hagain, fun col row _ _ => ?_, ?_, fun hlit => ?_⟩
  · rw [pixel_of_exec_drw hw hh hsized hagain, hk.spriteCovers_eq, hpixel, Bool.xor_assoc, Bool.xor_self,
      Bool.xor_false]
  · rintro ⟨col, row, hcol, hrow, hcov, hoff⟩
    refine reg_flag_eq_one_of_collision hw hh hsized hagain ⟨col, row, hcol, hrow, ?_, ?_⟩
    · rw [hk.spriteCovers_eq, hcov]
    · rw [hpixel, hcov, hoff, Bool.false_xor]
  · refine reg_flag_eq_zero_of_no_collision hw hh hsized hagain fun col row hcol hrow hcov => ?_
    rw [hk.spriteCovers_eq] at hcov
    rw [hpixel, hcov, hlit col row hcol hrow hcov, Bool.xor_self]

end Sys2Proof.Machine
end

section
/-! PROOFS. The family 44_unsupported.md: the ten unsupported rows have one meaning, which the policy selects, and no
other instruction raises UnsupportedOpcode. -/

namespace Sys2Proof.Machine

variable {s : State} {i : Instr}

/-- R120, R121: the ten unsupported rows have one meaning. -/
theorem exec_eq_unsupported (hu : i.unsupportedRow = true) : exec i s = unsupported s := by
  cases i with
  | cls | ret | jp | call | ldV | addV | ldI | drw => cases hu
  | _ => rfl

/-- Settles O47: under `NoOp` each of the ten rows answers the state itself. -/
theorem unsupportedWordsAreNoOps : Obligations.UnsupportedWordsAreNoOps := by
  intro s q k b hp
  have hself (i : Instr) (hu : i.unsupportedRow = true) : exec i s = .next s :=
    (exec_eq_unsupported hu).trans (unsupported_eq_next.2 ⟨hp, rfl⟩)
  exact ⟨hself _ rfl, hself _ rfl, hself _ rfl, hself _ rfl, hself _ rfl, hself _ rfl, hself _ rfl, hself _ rfl,
    hself _ rfl, hself _ rfl⟩

/-- R122, R134: under `Fault` an unsupported word raises UnsupportedOpcode, reported with the state it found. -/
theorem exec_eq_fault_of_unsupportedRow (hp : s.cfg.unsupportedPolicy = .fault) (hu : i.unsupportedRow = true) :
    exec i s = .fault (.fatal ⟨.unsupportedOpcode, s.pc - 2, s.current.map fun d => d.word, s⟩) :=
  (exec_eq_unsupported hu).trans (unsupported_eq_fault.2 ⟨hp, raiseInExecute_eq _⟩)

/-- UnsupportedOpcode has one cause: an unsupported row under policy `Fault`. -/
theorem policy_fault_of_exec_unsupportedOpcode {r : FatalReport} (h : exec i s = .fault (.fatal r))
    (hk : r.kind = .unsupportedOpcode) : s.cfg.unsupportedPolicy = .fault ∧ i.unsupportedRow = true := by
  obtain ⟨kind, hr, hcause⟩ := exec_eq_fault h
  cases hr
  obtain rfl : kind = .unsupportedOpcode := hk
  obtain ⟨hkind, -⟩ | ⟨hkind, -⟩ | ⟨hkind, -⟩ | ⟨-, hp, hu⟩ := hcause
  · cases hkind
  · cases hkind
  · cases hkind
  · exact ⟨hp, hu⟩

/-- Settles O48: the policy `Fault` is both enough for the fault and needed for it. -/
theorem unsupportedWordsFaultUnderThePolicy : Obligations.UnsupportedWordsFaultUnderThePolicy := by
  refine ⟨fun s i hp hu => ⟨_, exec_eq_fault_of_unsupportedRow hp hu, rfl, rfl⟩, fun s i r hp h hk => ?_⟩
  obtain ⟨hfault, -⟩ := policy_fault_of_exec_unsupportedOpcode h hk
  rw [hp] at hfault
  cases hfault

end Sys2Proof.Machine
end

section
/-! PROOFS. The family 60_exceptions.md: how a step comes to a fatal report and what is in it, RET and CALL at the
bounds of the call stack, and the keys as data that only the latch takes. -/

namespace Sys2Proof

/-! ### R50: the classes of the unsupported rows -/

theorem encode_class_of_unsupportedRow {i : Instr} (hu : i.unsupportedRow = true) :
    (encode i).toNat / 4096 ∈ [0x0, 0x3, 0x4, 0x5, 0x8, 0x9, 0xB, 0xC, 0xE, 0xF] := by
  rw [← fields_cls_toNat]
  cases i with
  | cls | ret | jp | call | ldV | addV | ldI | drw => cases hu
  | _ => simp [encode]

/-- A word that decodes to an unsupported row is in one of ten classes, and neither CLS nor RET (R120, R121). -/
theorem word_of_unsupportedRow {w : Word} (hu : (decode w).unsupportedRow = true) :
    w &&& 0xF0FF ≠ 0x00E0 ∧ w &&& 0xF0FF ≠ 0x00EE ∧
      w.toNat / 4096 ∈ [0x0, 0x3, 0x4, 0x5, 0x8, 0x9, 0xB, 0xC, 0xE, 0xF] := by
  obtain ⟨hcls, hret, -⟩ := wordsSelectTheirOpcodeRow w
  have hclass := encode_class_of_unsupportedRow hu
  rw [encode_decode] at hclass
  refine ⟨fun h => ?_, fun h => ?_, hclass⟩
  · rw [hcls.1 h] at hu
    cases hu
  · rw [hret.1 h] at hu
    cases hu

namespace Machine

variable {s : State} {i : Instr} {w : Word} {r : FatalReport} {x y : RegIdx} {n q : Nibble}

/-! ### R130, R138: how a step comes to a fatal report -/

/-- A fatal step is the report of the instruction fetched, or of the fetch check, in the state step 1 leaves. -/
theorem step_eq_fatal (h : step s = .fault (.fatal r)) :
    exec (decode s.fetchedWord) s.begun.fetched = .fault (.fatal r) ∨
    (¬ s.FetchFits ∧ r = ⟨.pcOutOfBounds, s.pc, none, s.begun⟩) := by
  obtain ⟨-, hhalted⟩ | ⟨-, hafter⟩ := stepCycle_eq_fault h
  · cases hhalted
  · obtain ⟨-, ⟨-, hexec⟩ | ⟨hbeyond, hr⟩⟩ := afterInput_eq_fault hafter
    · exact .inl hexec
    · refine .inr ⟨fun hfit => ?_, Fault.fatal.inj hr⟩
      have hin : s.fetchInBounds = true := State.fetchInBounds_iff.2 hfit
      exact Bool.false_ne_true (hbeyond.symm.trans hin)

/-- The fetch check is not the instruction's: no instruction raises PcOutOfBounds. -/
theorem exec_fatal_kind_ne_pcOutOfBounds (h : exec i s = .fault (.fatal r)) : r.kind ≠ .pcOutOfBounds := by
  obtain ⟨kind, hr, hcause⟩ := exec_eq_fault h
  cases hr
  rintro rfl
  simp at hcause

theorem holdsAtPc_fetchedWord (s : State) : s.HoldsAtPc s.fetchedWord := by
  have hlo := (s.memRead (s.pc.toNat + 1)).isLt
  rw [State.HoldsAtPc, fetchedWord_toNat]
  omega

/-- Settles O18: an instruction reports the state the fetch left, whose pc minus 2 and `current_instruction` are
the address and the word of the fetch. -/
theorem fatalReportIsPrecise : Obligations.FatalReportIsPrecise := by
  intro s r h
  obtain hexec | ⟨-, rfl⟩ := step_eq_fatal h
  · have hkind := exec_fatal_kind_ne_pcOutOfBounds hexec
    obtain ⟨kind, hr, -⟩ := exec_eq_fault hexec
    cases hr
    exact ⟨BitVec.add_sub_cancel s.pc 2, .inr ⟨hkind, s.fetchedWord, holdsAtPc_fetchedWord s, rfl, rfl⟩⟩
  · exact ⟨rfl, .inl ⟨rfl, rfl, rfl⟩⟩

/-- Settles O19: the instruction's kinds have the causes of `exec_eq_fault`, for the word at pc. -/
theorem fatalKindsHaveTheirCauses : Obligations.FatalKindsHaveTheirCauses := by
  intro s r w hw h
  obtain hexec | ⟨hbeyond, rfl⟩ := step_eq_fatal h
  · rw [fetchedWord_of_holdsAtPc hw] at hexec
    obtain ⟨kind, hr, hcause⟩ := exec_eq_fault hexec
    cases hr
    obtain ⟨rfl, hempty, hret⟩ | ⟨rfl, hfull, hcall⟩ | ⟨rfl, x, y, n, hdrw, hb⟩ | ⟨rfl, hpolicy, hu⟩ := hcause
    · exact ⟨hret, hempty⟩
    · exact ⟨hcall, hfull⟩
    · exact ⟨x, y, n, hdrw, spriteBeyondMemory_iff.1 hb⟩
    · exact ⟨hpolicy, word_of_unsupportedRow hu⟩
  · exact Nat.lt_of_not_le hbeyond

/-! ### R131, R132: RET and CALL at the bounds of the call stack -/

theorem exec_ret_on_empty (hs : s.stack = []) : exec (.ret q) s = raiseInExecute .stackUnderflow s :=
  (execRet_eq_fault (q := q)).2 ⟨hs, rfl⟩

/-- An executed cycle ends in the fault of its instruction: no tick and no hand-over follow. -/
theorem step_of_exec_fault {f : Fault} (hexecutes : s.Executes) (hfit : s.FetchFits) (hw : s.HoldsAtPc w)
    (hf : exec (decode w) s.begun.fetched = .fault f) : step s = .fault f := by
  have hword : s.begun.fetchedWord = w := fetchedWord_of_holdsAtPc hw
  rw [step_of_executes_of_fetchFits hexecutes hfit, hword, hf, finishCycle]

/-- Settles O34: RET finds the stack empty, alone and after the fetch, and the report holds the state it found. -/
theorem returnOnEmptyStackIsFatal : Obligations.ReturnOnEmptyStackIsFatal := by
  intro s hs
  refine ⟨fun q => ⟨_, exec_ret_on_empty hs, rfl, rfl⟩, fun w q hexecutes hfit hmem hw hret => ?_⟩
  have hf := exec_ret_on_empty (s := s.begun.fetched) (q := q) hs
  rw [← hret] at hf
  exact ⟨_, step_of_exec_fault hexecutes hfit hw hf, rfl, fetched_pc_toNat (s := s.begun) hmem hfit, hs⟩

/-- Settles O37: CALL finds the stack full after the fetch, and the report holds the state it found. -/
theorem callAtCapacityIsFatal : Obligations.CallAtCapacityIsFatal := by
  intro s w nnn hfull hexecutes hfit hmem hw hcall
  have hf := exec_call_at_capacity (s := s.begun.fetched) (nnn := nnn) hfull
  rw [← hcall] at hf
  exact ⟨_, step_of_exec_fault hexecutes hfit hw hf, rfl, rfl, fetched_pc_toNat (s := s.begun) hmem hfit⟩

/-! ### R20, R136: the keys reach nothing but the latch -/

/-- The same outcome with `k` in the latch of the state it holds: the next state, or the fatal report's. -/
def outcomeWithKeys (k : KeyLatch) : Host.Outcome State Fault Refusal → Host.Outcome State Fault Refusal
  | .next t => .next { t with keys := k }
  | .fault (.fatal r) => .fault (.fatal { r with state := { r.state with keys := k } })
  | .fault .halted => .fault .halted
  | .refused m => .refused m

/-- R105: a draw that fails its check raises MemoryOutOfBounds. -/
theorem exec_drw_beyond_memory (hb : spriteBeyondMemory s (rowsOnScreen s y n) = true) :
    exec (.drw x y n) s = raiseInExecute .memoryOutOfBounds s :=
  execDrw_eq_fault.2 ⟨hb, rfl⟩

section Keys

variable (k : KeyLatch)

theorem drawSprite_withKeys : drawSprite { s with keys := k } x y n = drawSprite s x y n :=
  Blit.rows_congr (s := s) (s' := { s with keys := k }) rfl rfl (fun _ => rfl) _

theorem unsupported_withKeys : unsupported { s with keys := k } = outcomeWithKeys k (unsupported s) := by
  cases hp : s.cfg.unsupportedPolicy with
  | noOp =>
    rw [unsupported_eq_next.2 ⟨hp, rfl⟩]
    exact unsupported_eq_next.2 ⟨hp, rfl⟩
  | fault =>
    rw [unsupported_eq_fault.2 ⟨hp, rfl⟩]
    exact unsupported_eq_fault.2 ⟨hp, rfl⟩

/-- No instruction reads or writes the latch. -/
theorem exec_withKeys : exec i { s with keys := k } = outcomeWithKeys k (exec i s) := by
  cases i with
  | cls | jp | ldV | addV | ldI => rfl
  | ret q =>
    obtain hs | ⟨xs, w, hs⟩ := s.stack.eq_nil_or_concat'
    · rw [exec_ret_on_empty hs]
      exact exec_ret_on_empty (s := { s with keys := k }) hs
    · rw [exec_ret hs]
      exact exec_ret (s := { s with keys := k }) hs
  | call nnn =>
    by_cases hd : s.stack.length = s.cfg.stackCap
    · rw [exec_call_at_capacity hd]
      exact exec_call_at_capacity (s := { s with keys := k }) hd
    · rw [exec_call hd]
      exact exec_call (s := { s with keys := k }) hd
  | drw x y n =>
    cases hb : spriteBeyondMemory s (rowsOnScreen s y n) with
    | true =>
      rw [exec_drw_beyond_memory hb]
      exact exec_drw_beyond_memory (s := { s with keys := k }) hb
    | false =>
      rw [exec_drw hb, exec_drw (s := { s with keys := k }) hb, drawSprite_withKeys]
      rfl
  | _ => exact unsupported_withKeys k

theorem finishCycle_withKeys (o : Host.Outcome State Fault Refusal) :
    finishCycle (outcomeWithKeys k o) = outcomeWithKeys k (finishCycle o) := by
  cases o with
  | next t => rfl
  | fault f => cases f <;> rfl
  | refused m => rfl

theorem executedCycle_withKeys : executedCycle { s with keys := k } = outcomeWithKeys k (executedCycle s) := by
  by_cases hfit : s.fetchInBounds = true
  · calc executedCycle { s with keys := k }
      _ = finishCycle (exec (decode s.fetchedWord) { s.fetched with keys := k }) := if_pos hfit
      _ = outcomeWithKeys k (finishCycle (exec (decode s.fetchedWord) s.fetched)) := by
        rw [exec_withKeys, finishCycle_withKeys]
      _ = outcomeWithKeys k (executedCycle s) := by rw [executedCycle, if_pos hfit]
  · rw [executedCycle, executedCycle, if_neg hfit]
    exact if_neg hfit

theorem afterInput_withKeys : State.afterInput { s with keys := k } = outcomeWithKeys k s.afterInput := by
  by_cases hpaused : s.run = .paused
  · rw [afterInput_of_paused hpaused]
    exact afterInput_of_paused (s := { s with keys := k }) hpaused
  · by_cases hstop : s.run = .quit ∧ s.cfg.quitCompletesCycle = false
    · obtain ⟨hquit, hc⟩ := hstop
      rw [afterInput_of_quit_at_once hquit hc]
      exact afterInput_of_quit_at_once (s := { s with keys := k }) hquit hc
    · have hc : s.run = .quit → s.cfg.quitCompletesCycle = true := by simpa using hstop
      rw [afterInput_of_executing hpaused hc, ← executedCycle_withKeys]
      exact afterInput_of_executing (s := { s with keys := k }) hpaused hc

/-- Step 1 overwrites the latch, whatever it held (R61), and the run state moves without the keys (R62). -/
theorem begun_withKeys (k' : KeyLatch) {inp : HostInput} {rest : List HostInput} (hs : s.inputs = inp :: rest) :
    State.begun { s with keys := k, inputs := { inp with keys := k' } :: rest } = { s.begun with keys := k' } := by
  have hnext : s.nextInput = inp := by rw [State.nextInput, hs, List.headD_cons]
  rw [State.begun, State.begun, hnext, hs]
  rfl

theorem step_withKeys (k' : KeyLatch) {inp : HostInput} {rest : List HostInput} (hs : s.inputs = inp :: rest) :
    step { s with keys := k, inputs := { inp with keys := k' } :: rest } = outcomeWithKeys k' (step s) := by
  by_cases hr : s.run = .quit
  · rw [step_eq_halted_iff.2 hr]
    exact step_eq_halted_iff.2 hr
  · rw [step_of_run_ne_quit hr, ← afterInput_withKeys, ← begun_withKeys k k' hs]
    exact step_of_run_ne_quit hr

end Keys

/-- Settles O50: the other machine's step is the same outcome with the other keys in the latch. -/
theorem keysReachNothingButTheLatch : Obligations.KeysReachNothingButTheLatch := by
  intro s inp rest k k' hs s'
  have hstep : step s' = outcomeWithKeys k' (step s) := step_withKeys k k' hs
  refine ⟨fun t h => ?_, fun r h => ?_, fun h => ?_⟩
  all_goals
    rw [hstep, h]
    rfl

end Machine

end Sys2Proof
end

section
/-! PROOFS. The family 70_reset_and_hazards.md: the image-size check of construction (R153), and the load error that
a run ends with when it fails (R140). -/

namespace Sys2Proof.Machine

variable {c : Config} {draw : ResetDraw} {image : List Byte} {inputs : List HostInput}

/-- What a construction refused for its image has checked (R6, R153). -/
theorem construct_eq_imageTooLarge : construct c draw image inputs = .error .imageTooLarge ↔
    c.wf = true ∧ c.memSize - c.programBase < image.length := by
  by_cases hc : c.wf = true
  · by_cases hl : image.length ≤ c.memSize - c.programBase
    · simp [construct, hc, hl]
    · simp [construct, hc, hl, Nat.lt_of_not_le hl]
  · simp [construct, hc]

/-- R140: a load error ends the run before its first cycle, so its exit outcome looks at no input. -/
theorem exitOf_of_construct_error {e : LoadError} (h : construct c draw image [] = .error e) :
    exitOf c draw image inputs = some (.loadFailure e) := by
  rw [exitOf, h]

/-- Settles O23: a legal configuration leaves the image's length as the only check, and the load error starts no
cycle. -/
theorem constructionChecksTheImageSize : Obligations.ConstructionChecksTheImageSize := by
  intro c draw image inputs hc
  refine ⟨⟨fun ⟨_, h⟩ => ?_, fun hl => ⟨_, construct_eq_ok.2 ⟨hc, hl, rfl⟩⟩⟩, fun hl => ?_⟩
  · obtain ⟨-, hl, -⟩ := construct_eq_ok.1 h
    exact hl
  · have hlarge (waiting : List HostInput) : construct c draw image waiting = .error .imageTooLarge :=
      construct_eq_imageTooLarge.2 ⟨hc, hl⟩
    exact ⟨hlarge inputs, exitOf_of_construct_error (hlarge [])⟩

end Sys2Proof.Machine
end
